-- ==== Sys2Proof/Word.lean ====
section
/-! DEFINITION. The word types of B91CORE, one for each register or transfer width that 00_scope.md R3 and
10_state.md R10 to R14 give. -/

namespace Sys2Proof

/-- `BYTE_W` and `CHAR_W`, 8 bits: an input byte, a character code, a data item (R3, R39). -/
abbrev Byte := BitVec 8

/-- `ACC_W`, 24 bits: the width of both accumulators (R3, decision D8). -/
abbrev Acc := BitVec 24

/-- `CNT_W`, 5 bits: the width of both bit counts (R3, decision D8). -/
abbrev Cnt := BitVec 5

/-- 7 bits: `DEC.pend`, an alphabet index 0 to 90 (R14). -/
abbrev Sym := BitVec 7

/-- `CMD_W`, 11 bits: a command word (R3, R50). -/
abbrev Cmd := BitVec 11

end Sys2Proof
end

