-- ==== Sys2Proof/Syntax.lean ====
section
/-! DEFINITION. The instructions: the commands of 30_encoding.md R51, one constructor for each row of
opcode_table.json, with the fields of R50 as types. -/

namespace Sys2Proof

/-- The `unit` field `cmd[10]` (R50): which of the two units a command addresses. -/
inductive UnitId where
  /-- 0: the encoder. -/
  | enc
  /-- 1: the decoder. -/
  | dec
  deriving DecidableEq, Repr

/-- The `op` field `cmd[9:8]` (R50). -/
inductive Op where
  /-- 0: `PUSH`. -/
  | push
  /-- 1: `END`. -/
  | finish
  /-- 2: `INIT`. -/
  | init
  /-- 3: reserved (R53). -/
  | rsvd
  deriving DecidableEq, Repr

/-- One constructor for each row of the opcode map (R51). The argument is the data field `cmd[7:0]`: the operand of a
`PUSH`; for the other rows a field the hardware ignores (R52), kept here so that no bit of a word is dropped. -/
inductive Instr where
  /-- `ENC.PUSH d`: feed one input byte to the encoder (R71). -/
  | encPush (d : Byte)
  /-- `ENC.END`: flush the encoder and close its stream (R76). -/
  | encEnd (ignored : Byte)
  /-- `ENC.INIT`: create a fresh encoder state (R70). -/
  | encInit (ignored : Byte)
  /-- The reserved row of ENC (R53). -/
  | encRsvd (ignored : Byte)
  /-- `DEC.PUSH c`: feed one character code to the decoder (R91). -/
  | decPush (c : Byte)
  /-- `DEC.END`: flush the decoder and close its stream (R98). -/
  | decEnd (ignored : Byte)
  /-- `DEC.INIT`: create a fresh decoder state (R90). -/
  | decInit (ignored : Byte)
  /-- The reserved row of DEC (R53). -/
  | decRsvd (ignored : Byte)
  deriving DecidableEq, Repr

/-- The unit a command addresses (R50). -/
def Instr.unit : Instr → UnitId
  | .encPush _ | .encEnd _ | .encInit _ | .encRsvd _ => .enc
  | .decPush _ | .decEnd _ | .decInit _ | .decRsvd _ => .dec

/-- The operation a command selects (R50). -/
def Instr.op : Instr → Op
  | .encPush _ | .decPush _ => .push
  | .encEnd _ | .decEnd _ => .finish
  | .encInit _ | .decInit _ => .init
  | .encRsvd _ | .decRsvd _ => .rsvd

/-- The data field a command carries (R50, R52). -/
def Instr.data : Instr → Byte
  | .encPush x | .encEnd x | .encInit x | .encRsvd x => x
  | .decPush x | .decEnd x | .decInit x | .decRsvd x => x

/-- The command with the given three fields (R50): every triple is one. -/
def Instr.ofFields : UnitId → Op → Byte → Instr
  | .enc, .push, x => .encPush x
  | .enc, .finish, x => .encEnd x
  | .enc, .init, x => .encInit x
  | .enc, .rsvd, x => .encRsvd x
  | .dec, .push, x => .decPush x
  | .dec, .finish, x => .decEnd x
  | .dec, .init, x => .decInit x
  | .dec, .rsvd, x => .decRsvd x

/-- Why bits are no command word. Raised by `portWord` (Decode.lean) only; safe: nothing runs. -/
inductive PortReject where
  /-- A bit above `cmd[10]` is set, and the port carries 11 bits (R33, R50). -/
  | widerThanPort
  deriving DecidableEq, Repr

end Sys2Proof
end

