-- ==== Sys2Proof/WellFormed.lean ====
section
/-! DEFINITION. The one check on an instruction. Every value of `Instr` is a command word the hardware accepts
(R50: none is undefined); well-formed is the CANONICAL form that 30_encoding.md R52 and R62 give: a row that ignores its
data field carries 0 there. The machine itself makes no use of this check. -/

namespace Sys2Proof

/-- The data field is 0 wherever the command ignores it (R52, R62). -/
def Instr.wellFormed : Instr → Bool
  | .encPush _ | .decPush _ => true
  | .encEnd x | .encInit x | .encRsvd x => x == 0
  | .decEnd x | .decInit x | .decRsvd x => x == 0

end Sys2Proof
end

