-- ==== Sys2Proof/Decode.lean ====
section
/-! DEFINITION. Decoding and encoding of command words (30_encoding.md R50, R51). The decoder is total on 11-bit
words: every one of the 2048 decodes. Bits that are no 11-bit word are rejected by name. -/

namespace Sys2Proof

/-- The `unit` field, `cmd[10]` (R50). -/
def unitOf (w : Cmd) : UnitId :=
  if w.getLsbD 10 then .dec else .enc

/-- The `op` field, `cmd[9:8]` (R50). -/
def opOf (w : Cmd) : Op :=
  match w.getLsbD 9, w.getLsbD 8 with
  | false, false => .push
  | false, true => .finish
  | true, false => .init
  | true, true => .rsvd

/-- The `data` field, `cmd[7:0]` (R50). -/
def dataOf (w : Cmd) : Byte :=
  w.extractLsb' 0 8

/-- The decoder (R51): the unit and the operation select the row, the data field never takes part. -/
def decode (w : Cmd) : Instr :=
  Instr.ofFields (unitOf w) (opOf w) (dataOf w)

/-- The bit that names a unit (R50). -/
def unitBits : UnitId → BitVec 1
  | .enc => 0
  | .dec => 1

/-- The two bits that name an operation (R50). -/
def opBits : Op → BitVec 2
  | .push => 0
  | .finish => 1
  | .init => 2
  | .rsvd => 3

/-- The encoder (R50): `cmd[10]`, `cmd[9:8]`, `cmd[7:0]`, most significant first. -/
def encode (i : Instr) : Cmd :=
  unitBits i.unit ++ opBits i.op ++ i.data

/-- `mask` of every row of the opcode map (R51). -/
def opcodeMask : Cmd := 0x700

/-- `match` of the row a command belongs to (R51). -/
def opcodeMatch : UnitId → Op → Cmd
  | .enc, .push => 0x000
  | .enc, .finish => 0x100
  | .enc, .init => 0x200
  | .enc, .rsvd => 0x300
  | .dec, .push => 0x400
  | .dec, .finish => 0x500
  | .dec, .init => 0x600
  | .dec, .rsvd => 0x700

/-- The word on the 11-bit command port for an instruction of `nbits` bits whose value is `w`. The command word has
no byte order: it is presented whole (20_memory.md R48). -/
def portWord (nbits w : Nat) : Except PortReject Cmd :=
  if w % 2 ^ nbits < 2 ^ 11 then .ok (BitVec.ofNat 11 (w % 2 ^ nbits)) else .error .widerThanPort

/-- The host's probe of the decoder: what it reads from an instruction of `nbits` bits whose value is `w`, numbered
as opcode_table.json numbers them. -/
def decodeTableWord (nbits w : Nat) : Option Instr :=
  match portWord nbits w with
  | .ok word => some (decode word)
  | .error _ => none

end Sys2Proof
end

