-- ==== Sys2Proof/Config.lean ====
section
/-! DEFINITION. What an implementation fixes beyond the spec: one free value. The widths are fixed in Word.lean
(decision D8: every `ACC_W >= 24` behaves alike), and the constants of R3 stand in Machine/Params.lean. -/

namespace Sys2Proof

/-- FREE VALUE (log 3). What a read of the `ALPHA` ROM at an index above 90 would give. 20_memory.md R31: such
an index "is never presented", so "the table needs no entry and no behaviour for `i > 90`". Only a state that breaks
10_state.md R17 presents one (`ENC.END` with an accumulator of 8281 or more); nothing constrains the value. -/
opaque Config.alphaBeyond : Nat → Byte

end Sys2Proof
end

