-- ==== Sys2Proof/Machine/Params.lean ====
section
/-! DEFINITION. The parameters 00_scope.md R3 lists as fixed by the source. -/

namespace Sys2Proof.Machine

/-- `N_ALPHA`: entries of the alphabet, and the base of the pair value (R3, R56). -/
def nAlpha : Nat := 91

/-- `W_SHORT`: bits of a short group (R3, R57). -/
def wShort : Nat := 13

/-- `W_LONG`: bits of a long group (R3, R57). -/
def wLong : Nat := 14

/-- `MASK13`: the low 13 bits (R3, R73). -/
def mask13 : Acc := 0x1FFF

/-- `MASK14`: the low 14 bits (R3, R73). -/
def mask14 : Acc := 0x3FFF

/-- `THRESH`: a 13-bit value greater than this is a short group (R3, R57). -/
def thresh : Acc := 88

/-- `PAIR_MAX`: the largest value two symbols represent (R3, R56). -/
def pairMax : Nat := 8280

/-- `BYTE_W`: bits of a byte (R3). -/
def byteW : Nat := 8

/-- `ENC_EMIT_LEVEL`: ENC emits a group while `bits > 13` (R3, R73). -/
def encEmitLevel : Cnt := 13

/-- `DEC_EMIT_LEVEL`: DEC emits a byte while `bits > 7` (R3, R96). -/
def decEmitLevel : Cnt := 7

/-- `FLUSH_BITS`: ENC's flush emits a second symbol if `bits > 7` (R3, R76). -/
def flushBits : Cnt := 7

/-- `FLUSH_VAL`: ENC's flush emits a second symbol if `acc > 90` (R3, R76). -/
def flushVal : Acc := 90

end Sys2Proof.Machine
end

