-- ==== Sys2Proof/Machine/Tables.lean ====
section
/-! DEFINITION. The two constant tables: `ALPHA` (30_encoding.md R54) and its reverse lookup `RLUT` (R55). They are
parameters of the step function, not state (10_state.md R23). -/

namespace Sys2Proof.Machine

/-- Indices 0 to 25: `A` to `Z` (R54). -/
def alphaUpper : List Byte :=
  [0x41, 0x42, 0x43, 0x44, 0x45, 0x46, 0x47, 0x48, 0x49, 0x4A, 0x4B, 0x4C, 0x4D,
   0x4E, 0x4F, 0x50, 0x51, 0x52, 0x53, 0x54, 0x55, 0x56, 0x57, 0x58, 0x59, 0x5A]

/-- Indices 26 to 51: `a` to `z` (R54). -/
def alphaLower : List Byte :=
  [0x61, 0x62, 0x63, 0x64, 0x65, 0x66, 0x67, 0x68, 0x69, 0x6A, 0x6B, 0x6C, 0x6D,
   0x6E, 0x6F, 0x70, 0x71, 0x72, 0x73, 0x74, 0x75, 0x76, 0x77, 0x78, 0x79, 0x7A]

/-- Indices 52 to 61: `0` to `9` (R54). -/
def alphaDigits : List Byte :=
  [0x30, 0x31, 0x32, 0x33, 0x34, 0x35, 0x36, 0x37, 0x38, 0x39]

/-- Indices 62 to 90: the 29 punctuation codes in the order R54 lists them. -/
def alphaPunct : List Byte :=
  [0x21, 0x23, 0x24, 0x25, 0x26, 0x28, 0x29, 0x2A, 0x2B, 0x2C, 0x2E, 0x2F, 0x3A, 0x3B, 0x3C,
   0x3D, 0x3E, 0x3F, 0x40, 0x5B, 0x5D, 0x5E, 0x5F, 0x60, 0x7B, 0x7C, 0x7D, 0x7E, 0x22]

/-- The `ALPHA` ROM, index 0 first (R54). -/
def alphaTable : List Byte :=
  alphaUpper ++ alphaLower ++ alphaDigits ++ alphaPunct

/-- `ALPHA[i]`: the character code at index `i` (R31). An index above 90 is never presented while R17 holds; there the
value is free (log 3). -/
def alpha (i : Nat) : Byte :=
  match alphaTable[i]? with
  | some c => c
  | none => Config.alphaBeyond i

/-- `RLUT[c]`: the index whose `ALPHA` entry is `c`, or `none` (20_memory.md R32, 30_encoding.md R55). -/
def rlut (c : Byte) : Option Sym :=
  (alphaTable.findIdx? (· == c)).map (BitVec.ofNat 7)

end Sys2Proof.Machine
end

