-- ==== Sys2Proof/Machine/State.lean ====
section
/-! DEFINITION. The state: every element of 10_state.md section 1, one field each, and beside them the list of what the
host has still to present on the port (log 1). Plain data. -/

namespace Sys2Proof.Machine

/-- An item of an output stream (R15). -/
inductive Item where
  /-- A data item `byte(b)`. -/
  | byte (b : Byte)
  /-- The end-of-stream token. -/
  | eos
  deriving DecidableEq, Repr

/-- What the host can do at the port: present a command word (20_memory.md R33), or reset the block
(70_reset_and_hazards.md R150; "Reset is the one operation that is not a command word"). -/
inductive PortEvent where
  /-- A command word. -/
  | command (w : Cmd)
  /-- The global reset. -/
  | reset
  deriving DecidableEq, Repr

/-- The encoder unit `ENC` (R11, R12, R15, R16). -/
@[ext]
structure Enc where
  /-- `ENC.acc`: the buffered bits, bit 0 the oldest (R11). -/
  acc : Acc
  /-- `ENC.bits`: how many bits of `acc` are valid (R12). -/
  bits : Cnt
  /-- `ENC.open` (R16). -/
  isOpen : Bool
  /-- `ENC.err`: bit 0 `ERR_CLOSED`, bit 1 `ERR_ILLEGAL`, sticky (R16). -/
  err : BitVec 2
  /-- `ENC.out`, oldest item first (R15). -/
  out : List Item
  deriving DecidableEq, Repr

/-- The decoder unit `DEC` (R13 to R16). -/
@[ext]
structure Dec where
  /-- `DEC.acc`: reconstructed bits not yet emitted, bit 0 the oldest (R13). -/
  acc : Acc
  /-- `DEC.bits`: how many bits of `acc` are valid (R13). -/
  bits : Cnt
  /-- `DEC.pend_valid`: a symbol waits for its partner (R14). -/
  pendValid : Bool
  /-- `DEC.pend`: its index, or 0 (R14, decision D13). -/
  pend : Sym
  /-- `DEC.open` (R16). -/
  isOpen : Bool
  /-- `DEC.err`: bit 0 `ERR_CLOSED`, bit 1 `ERR_ILLEGAL`, sticky (R16). -/
  err : BitVec 2
  /-- `DEC.out`, oldest item first (R15). -/
  out : List Item
  deriving DecidableEq, Repr

/-- B91CORE: one unit of each kind (R10), and the port. -/
@[ext]
structure State where
  /-- The encoder. -/
  enc : Enc
  /-- The decoder. -/
  dec : Dec
  /-- What the host has still to present, next first (R33). The MODEL's own field (log 1). -/
  input : List PortEvent
  deriving DecidableEq, Repr

/-- Reasons the machine stops with a fault. There is NO constructor: nothing in B91CORE stops. The spec's two faults,
ERR_CLOSED and ERR_ILLEGAL, set a bit of `U.err` and the next command "is executed normally" (60_exceptions.md R131), so
they are next states (log 2). Nothing raises a value of this type. -/
inductive Fault where
  deriving DecidableEq, Repr

/-- Reasons a step is refused. -/
inductive Refusal where
  /-- Raised by `exec`'s arm of an instruction that has no meaning yet, and by nothing else; safe. Every instruction
  has its meaning, so no arm raises it. -/
  | notModelled (mnemonic : String)
  deriving DecidableEq, Repr

/-- The encoder after reset (10_state.md R24). -/
def Enc.reset : Enc :=
  { acc := 0, bits := 0, isOpen := true, err := 0b00, out := [] }

/-- The decoder after reset (10_state.md R24). -/
def Dec.reset : Dec :=
  { acc := 0, bits := 0, pendValid := false, pend := 0, isOpen := true, err := 0b00, out := [] }

/-- The machine right after reset (10_state.md R24, 70_reset_and_hazards.md R150), with nothing on the port (log 1). -/
def State.reset : State :=
  { enc := Enc.reset, dec := Dec.reset, input := [] }

end Sys2Proof.Machine
end

