-- ==== Sys2Proof/Machine/Flags.lean ====
section
/-! DEFINITION. The flags (10_state.md R16, R21): the fault bits and the open flag, and the transient predicates of R27.
There are no condition codes. -/

namespace Sys2Proof.Machine

/-- The two faults (60_exceptions.md R130). -/
inductive ErrKind where
  /-- `ERR_CLOSED`: a PUSH or END reached a closed unit. -/
  | closed
  /-- `ERR_ILLEGAL`: a reserved command word addressed the unit. -/
  | illegal
  deriving DecidableEq, Repr

/-- The bit of `U.err` that records a fault (R130). -/
def errBit : ErrKind → BitVec 2
  | .closed => 0b01
  | .illegal => 0b10

/-- `U.open` (R16). -/
def isOpen (u : UnitId) (s : State) : Bool :=
  match u with
  | .enc => s.enc.isOpen
  | .dec => s.dec.isOpen

/-- `U.err` (R16). -/
def errOf (u : UnitId) (s : State) : BitVec 2 :=
  match u with
  | .enc => s.enc.err
  | .dec => s.dec.err

/-- `U.out` (R15). -/
def outOf (u : UnitId) (s : State) : List Item :=
  match u with
  | .enc => s.enc.out
  | .dec => s.dec.out

/-- `(v & 0x1FFF) > 88` (R27; decisions 3 and 8 of 42_sequences.md R115). The same test in both units (R57). -/
def isShort (v : Acc) : Bool :=
  decide (v &&& mask13 > thresh)

/-- `ENC.bits > 13` (R27; decision 2 of R115). -/
def groupReady (e : Enc) : Bool :=
  decide (e.bits > encEmitLevel)

/-- `ENC.bits > 0` (decision 4 of R115). -/
def flushAny (e : Enc) : Bool :=
  decide (e.bits > 0)

/-- `ENC.bits > 7 or ENC.acc > 90` (R27; decision 5 of R115). -/
def flushSecond (e : Enc) : Bool :=
  decide (e.bits > flushBits) || decide (e.acc > flushVal)

/-- `DEC.bits > 7` (R27; decision 9 of R115). -/
def byteReady (d : Dec) : Bool :=
  decide (d.bits > decEmitLevel)

end Sys2Proof.Machine
end

