-- ==== Sys2Proof/Machine/Operands.lean ====
section
/-! DEFINITION. Operand forms: how the data field of a PUSH becomes what is merged into an accumulator (30_encoding.md R58,
R59), the pair value (R56) and the group width (R57). -/

namespace Sys2Proof.Machine

/-- The operand of `ENC.PUSH`: the data field zero-extended to the accumulator's width (R58). -/
def encOperand (d : Byte) : Acc :=
  d.setWidth 24

/-- The operand of `DEC.PUSH`: the data field is used only as the index into `RLUT` (R59). -/
def decOperand (c : Byte) : Option Sym :=
  rlut c

/-- The pair value `lo + 91 * hi` (R56), zero-extended to the accumulator's width (R59). -/
def pairValue (lo hi : Sym) : Acc :=
  lo.setWidth 24 + hi.setWidth 24 * BitVec.ofNat 24 nAlpha

/-- The group width, a function of the value alone and the same in both units (R57). -/
def groupWidth (v : Acc) : Nat :=
  if isShort v then wShort else wLong

/-- The value of the group at the low end of the accumulator: its low 13 or 14 bits (R73). -/
def groupValue (acc : Acc) : Acc :=
  if isShort acc then acc &&& mask13 else acc &&& mask14

end Sys2Proof.Machine
end

