-- ==== Sys2Proof/Machine/Ops.lean ====
section
/-! DEFINITION. The named operations over the registers and streams: merging into and taking from an accumulator, appending
an item, raising a fault, the open check, reset, and taking the next event from the port. -/

namespace Sys2Proof.Machine

/-- `acc | (v << bits)`: place a value above the bits already held (R72, R94). -/
def mergeBits (acc : Acc) (bits : Cnt) (v : Acc) : Acc :=
  acc ||| (v <<< bits.toNat)

/-- `acc >> n`: take the oldest `n` bits away (R73, R96). -/
def dropBits (acc : Acc) (n : Nat) : Acc :=
  acc >>> n

/-- `bits + n`, as the 5-bit register holds it (R72, R94). -/
def countUp (bits : Cnt) (n : Nat) : Cnt :=
  bits + BitVec.ofNat 5 n

/-- `bits - n`, as the 5-bit register holds it (R73, R96). -/
def countDown (bits : Cnt) (n : Nat) : Cnt :=
  bits - BitVec.ofNat 5 n

/-- `while test do body`, cut off after the given number of rounds. Every loop of B91CORE is bounded (42_sequences.md
R115); the bounds used here suffice for every value of a 5-bit count (`encPushLoop_done`, `decCombineLoop_done`). -/
def repeatWhile {α : Type} (test : α → Bool) (body : α → α) : Nat → α → α
  | 0, a => a
  | rounds + 1, a => if test a then repeatWhile test body rounds (body a) else a

/-- `emit(ENC, b)` (R15). -/
def Enc.emit (b : Byte) (e : Enc) : Enc :=
  { e with out := e.out ++ [.byte b] }

/-- `emit_eos(ENC)` (R15). -/
def Enc.emitEos (e : Enc) : Enc :=
  { e with out := e.out ++ [.eos] }

/-- `emit(DEC, b)` (R15). -/
def Dec.emit (b : Byte) (d : Dec) : Dec :=
  { d with out := d.out ++ [.byte b] }

/-- `emit_eos(DEC)` (R15). -/
def Dec.emitEos (d : Dec) : Dec :=
  { d with out := d.out ++ [.eos] }

/-- Put ENC's data state at the values of R24 and set `ENC.open` (R25): the shared part of `INIT` and `END`. -/
def Enc.clear (nowOpen : Bool) (e : Enc) : Enc :=
  { e with acc := 0, bits := 0, isOpen := nowOpen }

/-- Put DEC's data state at the values of R24 and set `DEC.open` (R25): the shared part of `INIT` and `END`. -/
def Dec.clear (nowOpen : Bool) (d : Dec) : Dec :=
  { d with acc := 0, bits := 0, pendValid := false, pend := 0, isOpen := nowOpen }

/-- Change the encoder and nothing else (R43). -/
def onEnc (f : Enc → Enc) (s : State) : State :=
  { s with enc := f s.enc }

/-- Change the decoder and nothing else (R43). -/
def onDec (f : Dec → Dec) (s : State) : State :=
  { s with dec := f s.dec }

/-- `raise <Fault>`, the whole of taking an exception (60_exceptions.md R131): the fault's bit of `U.err` is set, no other
state changes, nothing is saved, and the next command is taken as usual. There is no return from it (R140). -/
def raise (u : UnitId) (k : ErrKind) (s : State) : State :=
  match u with
  | .enc => onEnc (fun e => { e with err := e.err ||| errBit k }) s
  | .dec => onDec (fun d => { d with err := d.err ||| errBit k }) s

/-- The open check of `PUSH` and `END` (decision 1 of 42_sequences.md R115): run the command on an open unit, raise
ERR_CLOSED on a closed one (R132). -/
def whenOpen (u : UnitId) (run : State → State) (s : State) : State :=
  if isOpen u s then run s else raise u .closed s

/-- Reset (70_reset_and_hazards.md R150, R151): every element of both units at its reset value, both output streams
empty. What the host has still to present stays the host's (log 5). -/
def restart (s : State) : State :=
  { State.reset with input := s.input }

/-- Take the next event from the port: the event, and the state without it; `none` where the host presents nothing
(20_memory.md R33). -/
def takeEvent (s : State) : Option (PortEvent × State) :=
  match s.input with
  | [] => none
  | ev :: rest => some (ev, { s with input := rest })

/-- Put an event at the front of what the host presents. -/
def present (ev : PortEvent) (s : State) : State :=
  { s with input := ev :: s.input }

end Sys2Proof.Machine
end

