-- ==== Sys2Proof/Machine/Decoder.lean ====
section
/-! DEFINITION. The commands of the decoder unit (41_decoder.md). -/

namespace Sys2Proof.Machine

/-- Step 2, hold the low symbol (R93). -/
def Dec.hold (idx : Sym) (d : Dec) : Dec :=
  { d with pend := idx, pendValid := true }

/-- Merge a pair value as 13 or 14 bits (R94, R95). -/
def Dec.mergePair (v : Acc) (d : Dec) : Dec :=
  { d with acc := mergeBits d.acc d.bits v, bits := countUp d.bits (groupWidth v) }

/-- Step 3c, emit the oldest 8 bits as a byte (R96). -/
def Dec.emitByte (d : Dec) : Dec :=
  Dec.emit (d.acc.setWidth 8)
    { d with acc := dropBits d.acc byteW, bits := countDown d.bits byteW }

/-- Rounds enough for the loop of R94: a 5-bit count falls by 8 a round. Under R18 it runs once or twice (R97). -/
def decRounds : Nat := 3

/-- Step 3, combine the held symbol and a new one (R94). -/
def Dec.combine (idx : Sym) (d : Dec) : Dec :=
  { repeatWhile byteReady Dec.emitByte decRounds (d.mergePair (pairValue d.pend idx)) with
    pendValid := false, pend := 0 }

/-- `DEC.PUSH c` on an open unit (R91): noise is skipped (R92), a first symbol held, a second combined. -/
def Dec.push (c : Byte) (d : Dec) : Dec :=
  match decOperand c with
  | none => d
  | some idx => if d.pendValid then d.combine idx else d.hold idx

/-- The flush of `DEC.END` (step 4, R98): one byte if a symbol is still held. -/
def Dec.flush (d : Dec) : Dec :=
  if d.pendValid then d.emit ((mergeBits d.acc d.bits (d.pend.setWidth 24)).setWidth 8) else d

/-- `DEC.END` on an open unit (R98). -/
def Dec.finish (d : Dec) : Dec :=
  Dec.clear false d.flush.emitEos

/-- `DEC.PUSH c` (R91). The open check comes before the lookup (R100). -/
def execDecPush (c : Byte) (s : State) : Host.Outcome State Fault Refusal :=
  .next (whenOpen .dec (onDec (Dec.push c)) s)

/-- `DEC.END` (R98). -/
def execDecEnd (s : State) : Host.Outcome State Fault Refusal :=
  .next (whenOpen .dec (onDec Dec.finish) s)

/-- `DEC.INIT` (R90), in either state of the unit. -/
def execDecInit (s : State) : Host.Outcome State Fault Refusal :=
  .next (onDec (Dec.clear true) s)

end Sys2Proof.Machine
end

