-- ==== Sys2Proof/Machine/Encoder.lean ====
section
/-! DEFINITION. The commands of the encoder unit (40_encoder.md). -/

namespace Sys2Proof.Machine

/-- Step 1, accumulate (R72). -/
def Enc.accumulate (d : Byte) (e : Enc) : Enc :=
  { e with acc := mergeBits e.acc e.bits (encOperand d), bits := countUp e.bits byteW }

/-- Emit a value as two symbols, low digit first (R36, R73). -/
def Enc.emitPair (v : Nat) (e : Enc) : Enc :=
  (e.emit (alpha (v % nAlpha))).emit (alpha (v / nAlpha))

/-- Step 2, emit one group of 13 or 14 bits (R73). -/
def Enc.group (e : Enc) : Enc :=
  Enc.emitPair (groupValue e.acc).toNat
    { e with acc := dropBits e.acc (groupWidth e.acc), bits := countDown e.bits (groupWidth e.acc) }

/-- Rounds enough for the loop of R71: a 5-bit count falls by at least 13 a round. Under R17 it runs at most once (R74). -/
def encRounds : Nat := 2

/-- `ENC.PUSH d` on an open unit (R71). -/
def Enc.push (d : Byte) (e : Enc) : Enc :=
  repeatWhile groupReady Enc.group encRounds (e.accumulate d)

/-- The flush of `ENC.END` (step 3, R76): no symbol, one, or two; the accumulator goes out as it stands (R77). -/
def Enc.flush (e : Enc) : Enc :=
  if flushAny e then
    if flushSecond e then e.emitPair e.acc.toNat else e.emit (alpha (e.acc.toNat % nAlpha))
  else e

/-- `ENC.END` on an open unit (R76). -/
def Enc.finish (e : Enc) : Enc :=
  Enc.clear false e.flush.emitEos

/-- `ENC.PUSH d` (R71). -/
def execEncPush (d : Byte) (s : State) : Host.Outcome State Fault Refusal :=
  .next (whenOpen .enc (onEnc (Enc.push d)) s)

/-- `ENC.END` (R76). -/
def execEncEnd (s : State) : Host.Outcome State Fault Refusal :=
  .next (whenOpen .enc (onEnc Enc.finish) s)

/-- `ENC.INIT` (R70), in either state of the unit. -/
def execEncInit (s : State) : Host.Outcome State Fault Refusal :=
  .next (onEnc (Enc.clear true) s)

end Sys2Proof.Machine
end

