-- ==== Sys2Proof/Machine/Reserved.lean ====
section
/-! DEFINITION. The two reserved rows (30_encoding.md R53): ERR_ILLEGAL on the addressed unit, in either state, and nothing
else (60_exceptions.md R133). -/

namespace Sys2Proof.Machine

/-- A reserved word that addresses ENC (R53, R133). -/
def execEncRsvd (s : State) : Host.Outcome State Fault Refusal :=
  .next (raise .enc .illegal s)

/-- A reserved word that addresses DEC (R53, R133). -/
def execDecRsvd (s : State) : Host.Outcome State Fault Refusal :=
  .next (raise .dec .illegal s)

end Sys2Proof.Machine
end

