-- ==== Sys2Proof/Machine/Dispatch.lean ====
section
/-! DEFINITION. One arm for each row of the opcode map (30_encoding.md R51). The rows other than PUSH ignore their data
field (R52), so their meanings do not receive it. -/

namespace Sys2Proof.Machine

def exec (i : Instr) (s : State) : Host.Outcome State Fault Refusal :=
  match i with
  | .encPush d => Sys2Proof.Machine.execEncPush d s
  | .encEnd _ => Sys2Proof.Machine.execEncEnd s
  | .encInit _ => Sys2Proof.Machine.execEncInit s
  | .encRsvd _ => Sys2Proof.Machine.execEncRsvd s
  | .decPush c => Sys2Proof.Machine.execDecPush c s
  | .decEnd _ => Sys2Proof.Machine.execDecEnd s
  | .decInit _ => Sys2Proof.Machine.execDecInit s
  | .decRsvd _ => Sys2Proof.Machine.execDecRsvd s

end Sys2Proof.Machine
end

