-- ==== Sys2Proof/Machine/Step.lean ====
section
/-! DEFINITION. One step: the hardware takes the next event the host presents and finishes it (20_memory.md R33). -/

namespace Sys2Proof.Machine

/-- A command word is decoded and run; the reset operation restarts both units (70_reset_and_hazards.md R150); where the
host presents nothing, the hardware idles and nothing changes (log 1). -/
def step (s : State) : Host.Outcome State Fault Refusal :=
  match takeEvent s with
  | none => .next s
  | some (.command w, t) => exec (decode w) t
  | some (.reset, t) => .next (restart t)

/-- `s` with the instruction of `nbits` bits whose value is `w` as the next command on the port (log 7). Bits that are
no 11-bit word cannot be presented, and leave `s` as it is. -/
def State.withFetchWord (s : State) (nbits w : Nat) : State :=
  match portWord nbits w with
  | .ok word => present (.command word) s
  | .error _ => s

end Sys2Proof.Machine
end

