-- ==== Sys2Proof/Machine/Observe.lean ====
section
/-! DEFINITION. What leaves the hardware: the output streams and the status outputs (10_state.md R15, R19). No register is
readable by the host. -/

namespace Sys2Proof.Machine

/-- The observation of B91CORE (R15, R19): `U.out`, `U.open` and `U.err` of each unit. -/
structure Observation where
  /-- `ENC.out`. -/
  encOut : List Item
  /-- `ENC.open`. -/
  encOpen : Bool
  /-- `ENC.err`. -/
  encErr : BitVec 2
  /-- `DEC.out`. -/
  decOut : List Item
  /-- `DEC.open`. -/
  decOpen : Bool
  /-- `DEC.err`. -/
  decErr : BitVec 2
  deriving DecidableEq, Repr

/-- What a host sees of a state (R19): nothing of `acc`, `bits`, `pend` or `pend_valid`. -/
def observe (s : State) : Observation :=
  { encOut := s.enc.out, encOpen := s.enc.isOpen, encErr := s.enc.err
    decOut := s.dec.out, decOpen := s.dec.isOpen, decErr := s.dec.err }

end Sys2Proof.Machine
end

