-- ==== Sys2Proof/Machine/Sequences.lean ====
section
/-! DEFINITION. Command sequences (42_sequences.md): the pseudo-instructions of 30_encoding.md R63, running a sequence, and
the results of ENCODE and DECODE. -/

namespace Sys2Proof.Machine

/-- `U.CHUNK x0 ... xk-1`, the source's `push(chunk)` (R112). -/
def chunk (u : UnitId) (xs : List Byte) : List Instr :=
  xs.map (Instr.ofFields u .push)

/-- `U.ENDWITH x0 ... xk-1`, the source's `end(finalChunk?)` (R114). -/
def endWith (u : UnitId) (xs : List Byte) : List Instr :=
  chunk u xs ++ [Instr.ofFields u .finish 0]

/-- `U.INIT; U.CHUNK ...; U.END`: the form both one-shot functions share (R110, R111). -/
def oneShot (u : UnitId) (xs : List Byte) : List Instr :=
  Instr.ofFields u .init 0 :: endWith u xs

/-- `ENCODE b0 ... bn-1` (R110). -/
def encodeSeq (bs : List Byte) : List Instr :=
  oneShot .enc bs

/-- `DECODE c0 ... cn-1` (R111). -/
def decodeSeq (cs : List Byte) : List Instr :=
  oneShot .dec cs

/-- Run a sequence of commands, each wholly before the next (20_memory.md R42). -/
def runInstrs : List Instr → State → Host.Outcome State Fault Refusal
  | [], s => .next s
  | i :: is, s =>
    match exec i s with
    | .next t => runInstrs is t
    | .fault r => .fault r
    | .refused r => .refused r

/-- The data items at the front of a stream, "up to but not including the `eos`" (R110, R111). -/
def dataItems : List Item → List Byte
  | .byte b :: rest => b :: dataItems rest
  | _ => []

/-- What a sequence appends to a unit's stream, up to the first `eos`; `none` if the run stops. -/
def appended (u : UnitId) (is : List Instr) (s : State) : Option (List Byte) :=
  match runInstrs is s with
  | .next t => some (dataItems ((outOf u t).drop (outOf u s).length))
  | _ => none

/-- The source's `encode(bytes) -> text`, run from a state (R110). -/
def encodeFrom (s : State) (bs : List Byte) : Option (List Byte) :=
  appended .enc (encodeSeq bs) s

/-- The source's `decode(text) -> bytes`, run from a state (R111). -/
def decodeFrom (s : State) (cs : List Byte) : Option (List Byte) :=
  appended .dec (decodeSeq cs) s

/-- The source's `stripNonAlphabetChars` (R122): `RLUT` alone decides. -/
def stripNoise (cs : List Byte) : List Byte :=
  cs.filter (fun c => (rlut c).isSome)

end Sys2Proof.Machine
end

