-- ==== Sys2Proof/Machine/Assembler.lean ====
section
/-! DEFINITION. The assembler text of 30_encoding.md R62 (`UNIT.OP [data]`, one command a line, `;` starts a comment) and
the pseudo-instructions of R63, from characters to command words. What R62 leaves open is in log 6. -/

namespace Sys2Proof.Machine

/-- Space or tab between the words of a line. -/
def isBlank (c : Char) : Bool :=
  c == ' ' || c == '\t'

/-- A character that ends a word: a blank, or the `;` that starts a comment. -/
def endsWord (c : Char) : Bool :=
  isBlank c || c == ';'

/-- The value of a digit, decimal or hexadecimal. -/
def digitValue (c : Char) : Option Nat :=
  if 0x30 ≤ c.toNat ∧ c.toNat ≤ 0x39 then some (c.toNat - 0x30)
  else if 0x41 ≤ c.toNat ∧ c.toNat ≤ 0x46 then some (c.toNat - 0x41 + 10)
  else if 0x61 ≤ c.toNat ∧ c.toNat ≤ 0x66 then some (c.toNat - 0x61 + 10)
  else none

/-- The value of a word of digits in a base, most significant first. -/
def digitsValue (base : Nat) (cs : List Char) : Option Nat :=
  cs.foldl (fun acc c =>
    match acc, digitValue c with
    | some n, some k => if k < base then some (n * base + k) else none
    | _, _ => none) (some 0)

/-- A number, `0x48` or `72` (R62), that fits the data field. -/
def numberValue (cs : List Char) : Option Byte :=
  let value :=
    match cs with
    | [] => none
    | ['0', 'x'] => none
    | '0' :: 'x' :: digits => digitsValue 16 digits
    | digits => digitsValue 10 digits
  match value with
  | some n => if n < 256 then some (BitVec.ofNat 8 n) else none
  | none => none

/-- The first operand of a text with no blank in front, and the text after it: "a number or a quoted printable character"
(R62). -/
def oneOperand (cs : List Char) : Option (Byte × List Char) :=
  match cs with
  | '\'' :: c :: '\'' :: rest =>
    if 0x20 ≤ c.toNat ∧ c.toNat ≤ 0x7E then some (BitVec.ofNat 8 c.toNat, rest) else none
  | _ =>
    match numberValue (cs.takeWhile (fun c => !endsWord c)) with
    | some b => some (b, cs.dropWhile (fun c => !endsWord c))
    | none => none

/-- The operands of a line, up to its end or its comment. Each begins after a blank. The first argument bounds how many are
read. -/
def operands : Nat → List Char → Option (List Byte)
  | 0, _ => some []
  | bound + 1, cs =>
    match cs.dropWhile isBlank with
    | [] => some []
    | c :: rest =>
      if c == ';' then some []
      else if cs.length = (c :: rest).length then none
      else
        match oneOperand (c :: rest) with
        | some (b, after) => (operands bound after).map (b :: ·)
        | none => none

/-- A command without operand: `END` and `INIT` write the canonical data 0 (R52, R62). -/
def plain (i : Instr) : List Byte → Option (List Instr)
  | [] => some [i]
  | _ :: _ => none

/-- A command with one operand. -/
def withByte (f : Byte → Instr) : List Byte → Option (List Instr)
  | [b] => some [f b]
  | _ => none

/-- The names of R62 and R63 and what each expands to. The reserved rows are "not commands a host would write" (R51). -/
def asmNames : List (String × (List Byte → Option (List Instr))) :=
  [("ENC.PUSH", withByte .encPush), ("ENC.END", plain (.encEnd 0)), ("ENC.INIT", plain (.encInit 0)),
   ("DEC.PUSH", withByte .decPush), ("DEC.END", plain (.decEnd 0)), ("DEC.INIT", plain (.decInit 0)),
   ("ENCODE", fun bs => some (encodeSeq bs)), ("DECODE", fun cs => some (decodeSeq cs)),
   ("ENC.CHUNK", fun bs => some (chunk .enc bs)), ("DEC.CHUNK", fun cs => some (chunk .dec cs)),
   ("ENC.ENDWITH", fun bs => some (endWith .enc bs)), ("DEC.ENDWITH", fun cs => some (endWith .dec cs))]

/-- A line without a name carries no operand and stands for no command. -/
def noCommand : List Byte → Option (List Instr)
  | [] => some []
  | _ :: _ => none

/-- The commands one line of text stands for; an empty line or a comment stands for none. -/
def assembleLine (line : List Char) : Option (List Instr) :=
  let text := line.dropWhile isBlank
  let name := text.takeWhile (fun c => !endsWord c)
  let rest := text.dropWhile (fun c => !endsWord c)
  if name = [] then (operands rest.length rest).bind noCommand
  else
    match asmNames.find? (fun p => p.1.toList == name) with
    | some p => (operands rest.length rest).bind p.2
    | none => none

/-- The command words one line of text stands for. -/
def assembleWords (line : List Char) : Option (List Cmd) :=
  (assembleLine line).map (List.map encode)

/-- One hexadecimal digit. -/
def hexDigit (n : BitVec 4) : Char :=
  if n.toNat < 10 then Char.ofNat (0x30 + n.toNat) else Char.ofNat (0x41 + (n.toNat - 10))

/-- A byte as `0x` and two digits. -/
def hexByte (b : Byte) : List Char :=
  ['0', 'x', hexDigit (b.extractLsb' 4 4), hexDigit (b.extractLsb' 0 4)]

/-- The text of a canonical command (R62); `none` for the reserved rows, which no host writes. -/
def asmText : Instr → Option (List Char)
  | .encPush d => some ("ENC.PUSH ".toList ++ hexByte d)
  | .encEnd _ => some "ENC.END".toList
  | .encInit _ => some "ENC.INIT".toList
  | .encRsvd _ => none
  | .decPush c => some ("DEC.PUSH ".toList ++ hexByte c)
  | .decEnd _ => some "DEC.END".toList
  | .decInit _ => some "DEC.INIT".toList
  | .decRsvd _ => none

end Sys2Proof.Machine
end

