-- ==== Sys2Proof/Safety.lean ====
section
/-! DEFINITION. What counts as a good state and a clean run, in the terms the statements use: the invariants of
10_state.md R17 and R18, alphabet closure (42_sequences.md R121), and a run without a fault (60_exceptions.md R140). -/

namespace Sys2Proof.Machine

/-- Encoder invariants (R17 a, b, c). -/
abbrev Enc.inv (e : Enc) : Prop :=
  e.acc.toNat < 2 ^ e.bits.toNat ∧ e.bits.toNat ≤ 13 ∧
    (e.isOpen = false → e.acc = 0 ∧ e.bits = 0)

/-- Decoder invariants (R18 a, b, c, d). -/
abbrev Dec.inv (d : Dec) : Prop :=
  d.acc.toNat < 2 ^ d.bits.toNat ∧ d.bits.toNat ≤ 7 ∧
    (d.pendValid = true → d.pend.toNat ≤ 90) ∧ (d.pendValid = false → d.pend = 0) ∧
    (d.isOpen = false → d.acc = 0 ∧ d.bits = 0 ∧ d.pendValid = false)

/-- The invariants of both units. -/
abbrev State.inv (s : State) : Prop :=
  s.enc.inv ∧ s.dec.inv

/-- An item of `ENC.out` is `eos` or the code of an alphabet character (R75, R121). -/
abbrev Item.inAlphabet : Item → Prop
  | .byte b => b ∈ alphaTable
  | .eos => True

/-- Every item of `ENC.out` is `eos` or an alphabet character (R75, R121). -/
def alphabetClosed (s : State) : Prop :=
  ∀ x ∈ s.enc.out, x.inAlphabet

/-- "This run raised no fault" is `U.err = 0` at its end (R140). -/
abbrev faultFree (s : State) : Prop :=
  s.enc.err = 0 ∧ s.dec.err = 0

end Sys2Proof.Machine
end

