-- ==== Sys2Proof/Certificates/Slice0/Obligations.lean ====
section
/-! DEFINITION. The statements about B91CORE, from the numbered rules of spec/. Numbers are natural numbers: a register's
value is its `toNat`, and the effects are written with `+`, `*`, `/` and `%` beside the machine's own bit operations. -/

open Sys2Proof Sys2Proof.Machine

/-! ### Encodings -/

/-- Decoding undoes encoding for every command, its data field at every value, and encoding undoes decoding for every one of
the 2048 words: no bit of a word is dropped (R50, R51). -/
def Obligations.EncodeAndDecodeAreInverse : Prop :=
  (∀ i : Instr, decode (encode i) = i) ∧ (∀ w : Cmd, encode (decode w) = w)

/-- R50: the three fields of the word, `cmd[10]`, `cmd[9:8]` and `cmd[7:0]`, in both directions; every word decodes. -/
def Obligations.CommandWordHasThreeFields : Prop :=
  (∀ (u : UnitId) (o : Op) (d : Byte), (encode (Instr.ofFields u o d)).toNat =
    (match u with | .enc => 0 | .dec => 1) * 1024 +
    (match o with | .push => 0 | .finish => 1 | .init => 2 | .rsvd => 3) * 256 + d.toNat) ∧
  (∀ w : Cmd, ∃ (u : UnitId) (o : Op) (d : Byte), decode w = Instr.ofFields u o d ∧
    w.toNat / 1024 = (match u with | .enc => 0 | .dec => 1) ∧
    w.toNat / 256 % 4 = (match o with | .push => 0 | .finish => 1 | .init => 2 | .rsvd => 3) ∧
    w.toNat % 256 = d.toNat)

/-- R51: each row is selected by `cmd & 0x700`, the data field never takes part, and the eight rows cover every word. -/
def Obligations.OpcodeMapSelectsTheRow : Prop :=
  ∀ w : Cmd,
    (w &&& 0x700 = 0x000 → decode w = .encPush (w.extractLsb' 0 8)) ∧
    (w &&& 0x700 = 0x100 → decode w = .encEnd (w.extractLsb' 0 8)) ∧
    (w &&& 0x700 = 0x200 → decode w = .encInit (w.extractLsb' 0 8)) ∧
    (w &&& 0x700 = 0x300 → decode w = .encRsvd (w.extractLsb' 0 8)) ∧
    (w &&& 0x700 = 0x400 → decode w = .decPush (w.extractLsb' 0 8)) ∧
    (w &&& 0x700 = 0x500 → decode w = .decEnd (w.extractLsb' 0 8)) ∧
    (w &&& 0x700 = 0x600 → decode w = .decInit (w.extractLsb' 0 8)) ∧
    (w &&& 0x700 = 0x700 → decode w = .decRsvd (w.extractLsb' 0 8)) ∧
    (w &&& 0x700 = 0x000 ∨ w &&& 0x700 = 0x100 ∨ w &&& 0x700 = 0x200 ∨ w &&& 0x700 = 0x300 ∨
      w &&& 0x700 = 0x400 ∨ w &&& 0x700 = 0x500 ∨ w &&& 0x700 = 0x600 ∨ w &&& 0x700 = 0x700)

/-- Words written out bit by bit from the patterns of R51 decode to the commands they stand for. -/
def Obligations.WrittenWordsDecode : Prop :=
  decode 0b00001100101 = .encPush 0x65 ∧ decode 0b00100000000 = .encEnd 0 ∧
  decode 0b01000000000 = .encInit 0 ∧ decode 0b01110101011 = .encRsvd 0xAB ∧
  decode 0b10001001010 = .decPush 0x4A ∧ decode 0b10100000000 = .decEnd 0 ∧
  decode 0b11000000000 = .decInit 0 ∧ decode 0b11111111111 = .decRsvd 0xFF ∧
  decode 0b00110101011 = .encEnd 0xAB ∧ decode 0b01011111111 = .encInit 0xFF

/-- The data field of END, INIT and the reserved rows is ignored: all 256 values select the same behaviour (R52). -/
def Obligations.IgnoredDataFieldHasNoEffect : Prop :=
  ∀ (x y : Byte) (s : State),
    exec (.encEnd x) s = exec (.encEnd y) s ∧ exec (.encInit x) s = exec (.encInit y) s ∧
    exec (.encRsvd x) s = exec (.encRsvd y) s ∧ exec (.decEnd x) s = exec (.decEnd y) s ∧
    exec (.decInit x) s = exec (.decInit y) s ∧ exec (.decRsvd x) s = exec (.decRsvd y) s

/-- R63: the words the four pseudo-instructions expand to. -/
def Obligations.PseudoInstructionsExpandToWords : Prop :=
  ∀ xs : List Byte,
    (encodeSeq xs).map encode = 0x200 :: (xs.map (fun b => 0x000 ||| b.setWidth 11) ++ [0x100]) ∧
    (decodeSeq xs).map encode = 0x600 :: (xs.map (fun c => 0x400 ||| c.setWidth 11) ++ [0x500]) ∧
    (chunk .enc xs).map encode = xs.map (fun b => 0x000 ||| b.setWidth 11) ∧
    (chunk .dec xs).map encode = xs.map (fun c => 0x400 ||| c.setWidth 11) ∧
    (endWith .enc xs).map encode = xs.map (fun b => 0x000 ||| b.setWidth 11) ++ [0x100] ∧
    (endWith .dec xs).map encode = xs.map (fun c => 0x400 ||| c.setWidth 11) ++ [0x500]

/-- The text of a canonical command assembles to its one canonical word, whatever byte a PUSH carries (R62; the model's
reading of the text's details is log 6). -/
def Obligations.CanonicalTextAssembles : Prop :=
  ∀ (i : Instr) (text : List Char), i.wellFormed = true → asmText i = some text →
    assembleWords text = some [encode i]

/-! ### The tables and the data encodings -/

/-- R54: the 91 entries of `ALPHA`, in closed form and as listed, no character twice. -/
def Obligations.AlphabetTableIsAsListed : Prop :=
  alphaTable.length = 91 ∧ alphaTable.Nodup ∧
  (∀ i : Nat, i ≤ 25 → alpha i = BitVec.ofNat 8 (0x41 + i)) ∧
  (∀ i : Nat, 26 ≤ i → i ≤ 51 → alpha i = BitVec.ofNat 8 (0x61 + (i - 26))) ∧
  (∀ i : Nat, 52 ≤ i → i ≤ 61 → alpha i = BitVec.ofNat 8 (0x30 + (i - 52))) ∧
  (List.range 29).map (fun k => alpha (62 + k)) =
    [0x21, 0x23, 0x24, 0x25, 0x26, 0x28, 0x29, 0x2A, 0x2B, 0x2C, 0x2E, 0x2F, 0x3A, 0x3B, 0x3C,
     0x3D, 0x3E, 0x3F, 0x40, 0x5B, 0x5D, 0x5E, 0x5F, 0x60, 0x7B, 0x7C, 0x7D, 0x7E, 0x22]

/-- R55: `RLUT[c] = some i` exactly when `ALPHA[i] = c`; the ranges of letters and digits; the codes that give `none`. -/
def Obligations.ReverseLookupUndoesAlphabet : Prop :=
  (∀ (c : Byte) (i : Sym), rlut c = some i ↔ i.toNat ≤ 90 ∧ alpha i.toNat = c) ∧
  (∀ c : Byte, 0x41 ≤ c.toNat → c.toNat ≤ 0x5A → rlut c = some (BitVec.ofNat 7 (c.toNat - 0x41))) ∧
  (∀ c : Byte, 0x61 ≤ c.toNat → c.toNat ≤ 0x7A → rlut c = some (BitVec.ofNat 7 (c.toNat - 0x61 + 26))) ∧
  (∀ c : Byte, 0x30 ≤ c.toNat → c.toNat ≤ 0x39 → rlut c = some (BitVec.ofNat 7 (c.toNat - 0x30 + 52))) ∧
  (∀ c : Byte, rlut c = none ↔
    (c.toNat ≤ 0x20 ∨ c = 0x27 ∨ c = 0x2D ∨ c = 0x5C ∨ c = 0x7F ∨ 0x80 ≤ c.toNat)) ∧
  ((List.range 256).filter (fun n => (rlut (BitVec.ofNat 8 n)).isNone)).length = 165

/-- R56: a pair of symbols stands for `lo + 91 * hi`, at most 8280; the value gives both back, and every value up to 8280 is
a pair. -/
def Obligations.PairValueIsABijection : Prop :=
  (∀ lo hi : Sym, lo.toNat ≤ 90 → hi.toNat ≤ 90 →
    (pairValue lo hi).toNat = lo.toNat + 91 * hi.toNat ∧ (pairValue lo hi).toNat ≤ 8280 ∧
    lo.toNat = (pairValue lo hi).toNat % 91 ∧ hi.toNat = (pairValue lo hi).toNat / 91) ∧
  (∀ v : Nat, v ≤ 8280 → ∃ lo hi : Sym, lo.toNat ≤ 90 ∧ hi.toNat ≤ 90 ∧ (pairValue lo hi).toNat = v)

/-- R57: the group is short if the low 13 bits exceed 88; the three classes of pair values and their widths; the encoder's
test on its accumulator agrees with the decoder's test on the value, for every accumulator. -/
def Obligations.GroupWidthClasses : Prop :=
  (∀ v : Acc, groupWidth v = if v.toNat % 8192 > 88 then 13 else 14) ∧
  (∀ v : Acc, v.toNat ≤ 8280 →
    (v.toNat ≤ 88 → groupWidth v = 14 ∧ v.toNat % 8192 = v.toNat ∧ v.getLsbD 13 = false) ∧
    (89 ≤ v.toNat → v.toNat ≤ 8191 → groupWidth v = 13 ∧ v.toNat % 8192 = v.toNat) ∧
    (8192 ≤ v.toNat → groupWidth v = 14 ∧ v.toNat % 8192 ≤ 88 ∧ v.getLsbD 13 = true) ∧
    groupValue v = v) ∧
  (∀ acc : Acc, groupWidth (groupValue acc) = groupWidth acc ∧ (groupValue acc).toNat ≤ 8280)

/-! ### One step -/

/-- A step runs the decoded command: where a command word is next on the port, `step` is `exec` of its decoding, on the state
with that word taken from the port and nothing else changed (R33, R42). -/
def Obligations.StepRunsTheDecodedCommand : Prop :=
  ∀ (s : State) (w : Cmd) (rest : List PortEvent), s.input = .command w :: rest →
    step s = exec (decode w) { s with input := rest }

/-- Where the reset operation is next on the port, a step restarts both units and goes on with what the host presents after
it. That reset is an event of the port's list is the model's choice (log 1, log 5; R151 allows a reset step). -/
def Obligations.StepTakesReset : Prop :=
  ∀ (s : State) (rest : List PortEvent), s.input = .reset :: rest →
    step s = .next { enc := State.reset.enc, dec := State.reset.dec, input := rest }

/-- Where the host presents nothing, a step changes nothing. The model's choice (log 1). -/
def Obligations.StepIdlesWithoutInput : Prop :=
  ∀ s : State, s.input = [] → step s = .next s

/-- A run of steps over command words is the run of the decoded commands, in the order presented, whatever the host presents
after them (R33, R42). -/
def Obligations.RunOfStepsRunsTheCommands : Prop :=
  ∀ (ws : List Cmd) (rest : List PortEvent) (s : State), s.input = ws.map .command ++ rest →
    Sys2Proof.core.run ws.length s = runInstrs (ws.map decode) { s with input := rest }

/-- Every command completes in every state, and so does every step (R160: "Each command is one atomic step … that always
completes"). -/
def Obligations.EveryCommandCompletes : Prop :=
  (∀ (i : Instr) (s : State), ∃ t, exec i s = .next t) ∧ (∀ s : State, ∃ t, step s = .next t)

/-! ### Reset -/

/-- R24: the value of every element after reset. -/
def Obligations.ResetValues : Prop :=
  State.reset.enc.acc = 0 ∧ State.reset.enc.bits = 0 ∧ State.reset.enc.isOpen = true ∧
  State.reset.enc.err = 0b00 ∧ State.reset.enc.out = [] ∧
  State.reset.dec.acc = 0 ∧ State.reset.dec.bits = 0 ∧ State.reset.dec.pendValid = false ∧
  State.reset.dec.pend = 0 ∧ State.reset.dec.isOpen = true ∧ State.reset.dec.err = 0b00 ∧
  State.reset.dec.out = []

/-- R150: reset puts every element of both units at its reset value, from any state; INIT differs from it only in that it
does not clear `U.err` and does not empty `U.out`, and in that it is per unit. -/
def Obligations.ResetIsGlobalAndInitIsPerUnit : Prop :=
  ∀ (s : State) (x : Byte),
    (restart s).enc = { acc := 0, bits := 0, isOpen := true, err := 0b00, out := [] } ∧
    (restart s).dec = { acc := 0, bits := 0, pendValid := false, pend := 0, isOpen := true, err := 0b00, out := [] } ∧
    exec (.encInit x) s = .next { s with enc := { (restart s).enc with err := s.enc.err, out := s.enc.out } } ∧
    exec (.decInit x) s = .next { s with dec := { (restart s).dec with err := s.dec.err, out := s.dec.out } }

/-! ### The encoder -/

/-- R70: `ENC.INIT`, in either state of the unit; its encoding. -/
def Obligations.EncInitCreatesAFreshState : Prop :=
  (∀ (x : Byte) (s : State),
    exec (.encInit x) s = .next { s with enc := { s.enc with acc := 0, bits := 0, isOpen := true } }) ∧
  (∀ x : Byte, (encode (.encInit x)).extractLsb' 8 3 = 0b010) ∧ encode (.encInit 0) = 0x200

/-- R71, R72, R73: `ENC.PUSH d`. Open: the byte goes above the buffered bits; with 13 bits or fewer nothing goes out;
otherwise one group of 13 bits (low 13 bits above 88) or of 14 bits goes out as two characters, low digit first. Closed:
ERR_CLOSED. The bound on the count is R17's (`StepKeepsTheInvariants`); under R17 the byte overlaps nothing and the accumulator
stays below `2^21`. -/
def Obligations.EncPushResult : Prop :=
  (∀ (d : Byte) (s : State), s.enc.isOpen = true → s.enc.bits.toNat ≤ 13 →
    let a := s.enc.acc.toNat ||| (d.toNat <<< s.enc.bits.toNat)
    let b := s.enc.bits.toNat + 8
    exec (.encPush d) s = .next { s with enc :=
      if b ≤ 13 then
        { s.enc with acc := BitVec.ofNat 24 a, bits := BitVec.ofNat 5 b }
      else if a % 8192 > 88 then
        { s.enc with
          acc := BitVec.ofNat 24 (a / 8192), bits := BitVec.ofNat 5 (b - 13)
          out := s.enc.out ++ [.byte (alpha (a % 8192 % 91)), .byte (alpha (a % 8192 / 91))] }
      else
        { s.enc with
          acc := BitVec.ofNat 24 (a / 16384), bits := BitVec.ofNat 5 (b - 14)
          out := s.enc.out ++ [.byte (alpha (a % 16384 % 91)), .byte (alpha (a % 16384 / 91))] } } ∧
    (s.enc.inv → a = s.enc.acc.toNat + d.toNat * 2 ^ s.enc.bits.toNat ∧ a < 2 ^ b ∧ a < 2 ^ 21)) ∧
  (∀ (d : Byte) (s : State), s.enc.isOpen = false →
    exec (.encPush d) s = .next { s with enc := { s.enc with err := s.enc.err ||| 0b01 } }) ∧
  (∀ d : Byte, encode (.encPush d) = 0x000 ||| d.setWidth 11)

/-- R74: the loop of `ENC.PUSH` runs at most once, so it may be an `if`; it appends nothing where the entry count is 5 or
less and exactly two items where it is 6 or more; the next count, by width. -/
def Obligations.EncPushLoopRunsAtMostOnce : Prop :=
  ∀ (d : Byte) (s : State), s.enc.isOpen = true → s.enc.bits.toNat ≤ 13 →
    s.enc.push d =
      (if (s.enc.accumulate d).bits.toNat > 13 then (s.enc.accumulate d).group else s.enc.accumulate d) ∧
    ∃ t, exec (.encPush d) s = .next t ∧
      (s.enc.bits.toNat ≤ 5 → t.enc.out = s.enc.out ∧ t.enc.bits.toNat = s.enc.bits.toNat + 8) ∧
      (6 ≤ s.enc.bits.toNat →
        (∃ x y : Byte, t.enc.out = s.enc.out ++ [.byte x, .byte y]) ∧
        t.enc.bits.toNat =
          (if (s.enc.acc.toNat ||| (d.toNat <<< s.enc.bits.toNat)) % 8192 > 88 then s.enc.bits.toNat - 5
           else s.enc.bits.toNat - 6))

/-- The range of what a group emits, for every accumulator (R75): a short group is 89 to 8191, a long one 0 to 88 or 8192 to
8280, so both `ALPHA` indices are at most 90; and an accumulator that meets R17 is below 8192 at the flush. -/
def Obligations.EmittedIndicesAreInRange : Prop :=
  (∀ acc : Acc,
    (groupWidth acc = 13 → 89 ≤ (groupValue acc).toNat ∧ (groupValue acc).toNat ≤ 8191) ∧
    (groupWidth acc = 14 → (groupValue acc).toNat ≤ 88 ∨
      (8192 ≤ (groupValue acc).toNat ∧ (groupValue acc).toNat ≤ 8280)) ∧
    (groupWidth acc = 13 ∨ groupWidth acc = 14) ∧
    (groupValue acc).toNat % 91 ≤ 90 ∧ (groupValue acc).toNat / 91 ≤ 90) ∧
  (∀ e : Enc, e.inv → e.acc.toNat < 8192 ∧ e.acc.toNat % 91 ≤ 90 ∧ e.acc.toNat / 91 ≤ 90)

/-- R76: `ENC.END`. Open: no character, one, or two (a second one if more than 7 bits are buffered or the value exceeds 90),
then `eos`; the data state is zeroed and the unit closed. Closed: ERR_CLOSED. In every state. -/
def Obligations.EncEndResult : Prop :=
  (∀ (x : Byte) (s : State), s.enc.isOpen = true →
    exec (.encEnd x) s = .next { s with enc := { s.enc with
      acc := 0, bits := 0, isOpen := false
      out := s.enc.out ++
        (if s.enc.bits.toNat > 0 then
          [.byte (alpha (s.enc.acc.toNat % 91))] ++
            (if s.enc.bits.toNat > 7 ∨ s.enc.acc.toNat > 90 then [.byte (alpha (s.enc.acc.toNat / 91))] else [])
         else []) ++ [.eos] } }) ∧
  (∀ (x : Byte) (s : State), s.enc.isOpen = false →
    exec (.encEnd x) s = .next { s with enc := { s.enc with err := s.enc.err ||| 0b01 } }) ∧
  (∀ x : Byte, (encode (.encEnd x)).extractLsb' 8 3 = 0b001) ∧ encode (.encEnd 0) = 0x100

/-- R77: the cases of the flush, by the entry count and accumulator, under R17. -/
def Obligations.EncFlushCases : Prop :=
  ∀ (x : Byte) (s : State), s.enc.isOpen = true → s.enc.inv →
    ∃ t, exec (.encEnd x) s = .next t ∧
      (s.enc.bits.toNat = 0 → s.enc.acc = 0 ∧ t.enc.out = s.enc.out ++ [.eos]) ∧
      (1 ≤ s.enc.bits.toNat → s.enc.bits.toNat ≤ 6 →
        s.enc.acc.toNat ≤ 63 ∧ t.enc.out = s.enc.out ++ [.byte (alpha s.enc.acc.toNat), .eos]) ∧
      (s.enc.bits.toNat = 7 → s.enc.acc.toNat ≤ 90 →
        t.enc.out = s.enc.out ++ [.byte (alpha s.enc.acc.toNat), .eos]) ∧
      (s.enc.bits.toNat = 7 → 91 ≤ s.enc.acc.toNat →
        s.enc.acc.toNat ≤ 127 ∧
        t.enc.out = s.enc.out ++ [.byte (alpha (s.enc.acc.toNat - 91)), .byte 0x42, .eos]) ∧
      (8 ≤ s.enc.bits.toNat →
        s.enc.acc.toNat ≤ 8191 ∧
        t.enc.out = s.enc.out ++
          [.byte (alpha (s.enc.acc.toNat % 91)), .byte (alpha (s.enc.acc.toNat / 91)), .eos])

/-- R78: PUSH and END on a closed encoder set `ENC.err[0]` and do nothing else, not even append `eos`; the data state they keep
is 0 by R17; INIT reopens the unit and does not clear the bit. -/
def Obligations.ClosedEncoderFaults : Prop :=
  ∀ (x : Byte) (s : State), s.enc.isOpen = false →
    exec (.encPush x) s = .next { s with enc := { s.enc with err := s.enc.err ||| 0b01 } } ∧
    exec (.encEnd x) s = .next { s with enc := { s.enc with err := s.enc.err ||| 0b01 } } ∧
    (s.enc.inv → s.enc.acc = 0 ∧ s.enc.bits = 0) ∧
    ∃ t, exec (.encInit x) s = .next t ∧ t.enc.isOpen = true ∧ t.enc.err = s.enc.err

/-! ### The decoder -/

/-- R90: `DEC.INIT`, in either state of the unit; its encoding. -/
def Obligations.DecInitCreatesAFreshState : Prop :=
  (∀ (x : Byte) (s : State),
    exec (.decInit x) s = .next { s with dec :=
      { s.dec with acc := 0, bits := 0, pendValid := false, pend := 0, isOpen := true } }) ∧
  (∀ x : Byte, (encode (.decInit x)).extractLsb' 8 3 = 0b110) ∧ encode (.decInit 0) = 0x600

/-- R92, R60: a character code that is not in the alphabet changes nothing on an open decoder, pending symbol or not; on a
closed one it raises ERR_CLOSED. -/
def Obligations.DecPushSkipsNoise : Prop :=
  ∀ (c : Byte) (s : State), rlut c = none →
    (s.dec.isOpen = true → exec (.decPush c) s = .next s) ∧
    (s.dec.isOpen = false →
      exec (.decPush c) s = .next { s with dec := { s.dec with err := s.dec.err ||| 0b01 } })

/-- R93: a valid character is held where none is pending, index 0 like any other; accumulator, count and stream are not
touched. -/
def Obligations.DecPushHoldsTheFirstSymbol : Prop :=
  ∀ (c : Byte) (idx : Sym) (s : State), s.dec.isOpen = true → s.dec.pendValid = false → rlut c = some idx →
    exec (.decPush c) s = .next { s with dec := { s.dec with pend := idx, pendValid := true } }

/-- R94, R95, R96: a valid character with one pending: the value `pend + 91 * idx` goes above the buffered bits as 13 or 14
bits, every whole byte goes out oldest first, and nothing is pending any more. The bound on the count is R18's
(`StepKeepsTheInvariants`); under R18 nothing overlaps, the value is at most 8280 and the accumulator stays below `2^21`. -/
def Obligations.DecPushCombinesAPair : Prop :=
  ∀ (c : Byte) (idx : Sym) (s : State), s.dec.isOpen = true → s.dec.pendValid = true → rlut c = some idx →
    s.dec.bits.toNat ≤ 7 →
    let v := s.dec.pend.toNat + idx.toNat * 91
    let a := s.dec.acc.toNat ||| (v <<< s.dec.bits.toNat)
    let b := s.dec.bits.toNat + (if v % 8192 > 88 then 13 else 14)
    exec (.decPush c) s = .next { s with dec :=
      if b ≤ 15 then
        { s.dec with
          acc := BitVec.ofNat 24 (a / 256), bits := BitVec.ofNat 5 (b - 8), pendValid := false, pend := 0
          out := s.dec.out ++ [.byte (BitVec.ofNat 8 (a % 256))] }
      else
        { s.dec with
          acc := BitVec.ofNat 24 (a / 65536), bits := BitVec.ofNat 5 (b - 16), pendValid := false, pend := 0
          out := s.dec.out ++ [.byte (BitVec.ofNat 8 (a % 256)), .byte (BitVec.ofNat 8 (a / 256 % 256))] } } ∧
    (s.dec.inv → v ≤ 8280 ∧ a = s.dec.acc.toNat + v * 2 ^ s.dec.bits.toNat ∧ a < 2 ^ b ∧ a < 2 ^ 21)

/-- R97: one combine emits 1 or 2 bytes, never 0 and never 3; the next count, by the sum of the entry count and the width. -/
def Obligations.DecCombineEmitsOneOrTwoBytes : Prop :=
  ∀ (c : Byte) (idx : Sym) (s : State), s.dec.isOpen = true → s.dec.pendValid = true → rlut c = some idx →
    s.dec.bits.toNat ≤ 7 →
    let b := s.dec.bits.toNat + (if (s.dec.pend.toNat + idx.toNat * 91) % 8192 > 88 then 13 else 14)
    13 ≤ b ∧ b ≤ 21 ∧
    ∃ (t : State) (bytes : List Byte), exec (.decPush c) s = .next t ∧
      t.dec.out = s.dec.out ++ bytes.map .byte ∧
      (b ≤ 15 → bytes.length = 1 ∧ t.dec.bits.toNat = b - 8 ∧ 5 ≤ b - 8 ∧ b - 8 ≤ 7) ∧
      (16 ≤ b → bytes.length = 2 ∧ t.dec.bits.toNat = b - 16 ∧ b - 16 ≤ 5)

/-- R98: `DEC.END`. Open: one byte if a symbol is pending, then `eos`; the data state is zeroed and the unit closed. Closed:
ERR_CLOSED. In every state. -/
def Obligations.DecEndResult : Prop :=
  (∀ (x : Byte) (s : State), s.dec.isOpen = true →
    exec (.decEnd x) s = .next { s with dec := { s.dec with
      acc := 0, bits := 0, pendValid := false, pend := 0, isOpen := false
      out := s.dec.out ++
        (if s.dec.pendValid = true then
          [.byte (BitVec.ofNat 8 ((s.dec.acc.toNat ||| (s.dec.pend.toNat <<< s.dec.bits.toNat)) % 256))]
         else []) ++ [.eos] } }) ∧
  (∀ (x : Byte) (s : State), s.dec.isOpen = false →
    exec (.decEnd x) s = .next { s with dec := { s.dec with err := s.dec.err ||| 0b01 } }) ∧
  (∀ x : Byte, (encode (.decEnd x)).extractLsb' 8 3 = 0b101) ∧ encode (.decEnd 0) = 0x500

/-- R99: the cases of the decoder flush under R18: leftover bits without a pending symbol are dropped whatever their value;
with a pending symbol exactly one byte, the low 8 bits of `acc + pend * 2^bits`. -/
def Obligations.DecFlushCases : Prop :=
  ∀ (x : Byte) (s : State), s.dec.isOpen = true → s.dec.inv →
    ∃ t, exec (.decEnd x) s = .next t ∧
      (s.dec.pendValid = false → t.dec.out = s.dec.out ++ [.eos]) ∧
      (s.dec.pendValid = true →
        s.dec.acc.toNat + s.dec.pend.toNat * 2 ^ s.dec.bits.toNat < 2 ^ 14 ∧
        t.dec.out = s.dec.out ++
          [.byte (BitVec.ofNat 8 ((s.dec.acc.toNat + s.dec.pend.toNat * 2 ^ s.dec.bits.toNat) % 256)), .eos])

/-- R100: PUSH and END on a closed decoder set `DEC.err[0]` and do nothing else, whatever the character; INIT reopens the unit
and does not clear the bit. -/
def Obligations.ClosedDecoderFaults : Prop :=
  ∀ (x : Byte) (s : State), s.dec.isOpen = false →
    exec (.decPush x) s = .next { s with dec := { s.dec with err := s.dec.err ||| 0b01 } } ∧
    exec (.decEnd x) s = .next { s with dec := { s.dec with err := s.dec.err ||| 0b01 } } ∧
    ∃ t, exec (.decInit x) s = .next t ∧ t.dec.isOpen = true ∧ t.dec.err = s.dec.err

/-! ### Faults and flags -/

/-- R53, R133: a reserved word sets `U.err[1]` of its unit, in either state, and changes nothing else; the words are `0x300` to
`0x3FF` and `0x700` to `0x7FF`. -/
def Obligations.ReservedWordsSetErrIllegal : Prop :=
  (∀ (x : Byte) (s : State),
    exec (.encRsvd x) s = .next { s with enc := { s.enc with err := s.enc.err ||| 0b10 } } ∧
    exec (.decRsvd x) s = .next { s with dec := { s.dec with err := s.dec.err ||| 0b10 } }) ∧
  (∀ w : Cmd,
    ((∃ x, decode w = .encRsvd x) ↔ 0x300 ≤ w.toNat ∧ w.toNat ≤ 0x3FF) ∧
    ((∃ x, decode w = .decRsvd x) ↔ 0x700 ≤ w.toNat ∧ w.toNat ≤ 0x7FF))

/-- R130, R139: what each command adds to each fault record, exactly: a reserved word its unit's ERR_ILLEGAL, whatever
`U.open` is; a PUSH or END on a closed unit its ERR_CLOSED; nothing else anything. -/
def Obligations.FaultRecordIsComplete : Prop :=
  ∀ (i : Instr) (s : State), ∃ t, exec i s = .next t ∧ ∀ u : UnitId,
    errOf u t = errOf u s |||
      (if i.unit = u then
        (match i.op with
         | .rsvd => 0b10
         | .push | .finish => if isOpen u s = true then 0b00 else 0b01
         | .init => 0b00)
       else 0b00)

/-- R131: a fault sets its own bit and does nothing else: the faulting command answers a next state that differs in `U.err`
alone, and what the host sees differs in that bit alone. -/
def Obligations.FaultHasNoOtherEffect : Prop :=
  ∀ (i : Instr) (s : State),
    (i.op = .rsvd ∨ ((i.op = .push ∨ i.op = .finish) ∧ isOpen i.unit s = false)) →
    let bit : BitVec 2 := if i.op = .rsvd then 0b10 else 0b01
    ∃ t : State, exec i s = .next t ∧
      (i.unit = .enc → t = { s with enc := { s.enc with err := s.enc.err ||| bit } } ∧
        observe t = { observe s with encErr := s.enc.err ||| bit }) ∧
      (i.unit = .dec → t = { s with dec := { s.dec with err := s.dec.err ||| bit } } ∧
        observe t = { observe s with decErr := s.dec.err ||| bit })

/-- A set bit of `U.err` is cleared by no command (R16, R140), and by the reset operation alone among all that a step can
take. -/
def Obligations.OnlyResetClearsFaultBits : Prop :=
  (∀ (i : Instr) (s t : State) (u : UnitId), exec i s = .next t → errOf u t &&& errOf u s = errOf u s) ∧
  (∀ (s t : State) (u : UnitId), step s = .next t → errOf u t &&& errOf u s ≠ errOf u s →
    ∃ rest, s.input = .reset :: rest ∧ errOf u t = 0)

/-- No fault depends on data (R134, R101): a PUSH, END or INIT on an open unit leaves both fault records as they were, whatever
the byte or character. -/
def Obligations.NoFaultDependsOnData : Prop :=
  ∀ (i : Instr) (s : State), isOpen i.unit s = true → i.op ≠ .rsvd →
    ∃ t, exec i s = .next t ∧ t.enc.err = s.enc.err ∧ t.dec.err = s.dec.err

/-- The open/closed state machine (R116, R118): INIT opens, END closes, every other command leaves `U.open`; the other unit's
is never touched. -/
def Obligations.OpenClosedStateMachine : Prop :=
  ∀ (i : Instr) (s : State), ∃ t, exec i s = .next t ∧ ∀ u : UnitId,
    isOpen u t =
      (if i.unit = u then
        (match i.op with
         | .init => true
         | .finish => false
         | .push | .rsvd => isOpen u s)
       else isOpen u s)

/-! ### Frames, independence, outputs -/

/-- The frame of every command (R43): a command to one unit leaves every register and the stream of the other unit, and what
the host has still to present, as they were. -/
def Obligations.CommandLeavesTheOtherUnit : Prop :=
  ∀ (i : Instr) (s : State), ∃ t, exec i s = .next t ∧ t.input = s.input ∧
    (i.unit = .enc → t.dec = s.dec) ∧ (i.unit = .dec → t.enc = s.enc)

/-- R43: a command reads and writes only its own unit (the new state of the unit is a function of its old state and the
command), hence two commands addressed to different units commute. -/
def Obligations.UnitsAreIndependent : Prop :=
  (∀ (i : Instr) (s s' t t' : State), exec i s = .next t → exec i s' = .next t' →
    (i.unit = .enc → t.dec = s.dec ∧ (s.enc = s'.enc → t.enc = t'.enc)) ∧
    (i.unit = .dec → t.enc = s.enc ∧ (s.dec = s'.dec → t.dec = t'.dec))) ∧
  (∀ (i j : Instr) (s : State), i.unit ≠ j.unit → runInstrs [i, j] s = runInstrs [j, i] s)

/-- R34: what a command appends to the streams, under R17 and R18: to its own unit's stream alone, after every earlier item, and
by command: `ENC.PUSH` 0 or 2 data items, `ENC.END` 0 to 2 and `eos`, `DEC.PUSH` 0 to 2, `DEC.END` 0 or 1 and `eos`, INIT
none; a command that faults appends none. -/
def Obligations.ItemsPerCommand : Prop :=
  ∀ (i : Instr) (s : State), s.inv →
    ∃ (t : State) (data : List Byte) (tail : List Item), exec i s = .next t ∧
      outOf i.unit t = outOf i.unit s ++ data.map .byte ++ tail ∧ data.length + tail.length ≤ 3 ∧
      (∀ u : UnitId, u ≠ i.unit → outOf u t = outOf u s) ∧
      (isOpen i.unit s = true →
        match i with
        | .encPush _ => (data.length = 0 ∨ data.length = 2) ∧ tail = []
        | .encEnd _ => data.length ≤ 2 ∧ tail = [.eos]
        | .decPush _ => data.length ≤ 2 ∧ tail = []
        | .decEnd _ => data.length ≤ 1 ∧ tail = [.eos]
        | .encInit _ | .decInit _ | .encRsvd _ | .decRsvd _ => data = [] ∧ tail = []) ∧
      (isOpen i.unit s = false → data = [] ∧ tail = [])

/-- Bits and a symbol that are held back are not observed (R22): a byte pushed with at most 5 bits buffered, and a first
symbol, leave everything the host sees as it was. -/
def Obligations.HeldBitsAreNotObserved : Prop :=
  ∀ (x : Byte) (s : State),
    (s.enc.isOpen = true → s.enc.bits.toNat ≤ 5 →
      ∃ t, exec (.encPush x) s = .next t ∧ observe t = observe s ∧ t.enc.bits.toNat = s.enc.bits.toNat + 8) ∧
    (s.dec.isOpen = true → s.dec.pendValid = false → (rlut x).isSome = true →
      ∃ t, exec (.decPush x) s = .next t ∧ observe t = observe s ∧ t.dec.pendValid = true)

/-! ### Invariants -/

/-- Every step keeps the invariants of both units (R17 a to c, R18 a to d), from every state that meets them. -/
def Obligations.StepKeepsTheInvariants : Prop :=
  ∀ s t : State, s.inv → step s = .next t → t.inv

/-- The reset state meets the invariants (R17, R18, R24). -/
def Obligations.ResetMeetsTheInvariants : Prop :=
  State.reset.inv ∧ alphabetClosed State.reset ∧ faultFree State.reset

/-- Inside a PUSH, after the merge and before anything is removed, the count is at most 21 and the accumulator below `2^21`,
and the merge is an addition, so nothing is lost (R4, R5, and the second half of R17 a and R18). -/
def Obligations.MergesAreExact : Prop :=
  (∀ (d : Byte) (e : Enc), e.inv →
    (e.accumulate d).acc.toNat = e.acc.toNat + d.toNat * 2 ^ e.bits.toNat ∧
    (e.accumulate d).bits.toNat = e.bits.toNat + 8 ∧
    (e.accumulate d).acc.toNat < 2 ^ (e.accumulate d).bits.toNat ∧
    (e.accumulate d).bits.toNat ≤ 21 ∧ (e.accumulate d).acc.toNat < 2 ^ 21) ∧
  (∀ (idx : Sym) (d : Dec), d.inv → d.pendValid = true → idx.toNat ≤ 90 →
    let m := d.mergePair (pairValue d.pend idx)
    m.acc.toNat = d.acc.toNat + (d.pend.toNat + idx.toNat * 91) * 2 ^ d.bits.toNat ∧
    m.acc.toNat < 2 ^ m.bits.toNat ∧ 13 ≤ m.bits.toNat ∧ m.bits.toNat ≤ 21 ∧ m.acc.toNat < 2 ^ 21)

/-- Every count the invariants allow is reached by some run of commands from reset (R17: 0 to 13 for ENC; R18: 0 to 7 for
DEC). -/
def Obligations.EveryCountIsReachable : Prop :=
  (∀ n : Nat, n ≤ 13 → ∃ (is : List Instr) (t : State),
    runInstrs is State.reset = .next t ∧ t.enc.isOpen = true ∧ t.enc.bits.toNat = n) ∧
  (∀ n : Nat, n ≤ 7 → ∃ (is : List Instr) (t : State),
    runInstrs is State.reset = .next t ∧ t.dec.isOpen = true ∧ t.dec.bits.toNat = n)

/-- Every step keeps alphabet closure (R75, R121): from a state that meets R17, if every item of `ENC.out` is an alphabet
character or `eos`, so is every item after the step. -/
def Obligations.StepKeepsAlphabetClosure : Prop :=
  ∀ s t : State, s.enc.inv → alphabetClosed s → step s = .next t → alphabetClosed t

/-! ### Sequences -/

/-- R110: `ENCODE`, from any state, appends its result and then `eos`; the result is a function of the bytes alone; it is empty
for no bytes; right after reset the INIT may be omitted. -/
def Obligations.EncodeIsAFunctionOfTheBytes : Prop :=
  ∀ bs : List Byte, ∃ text : List Byte,
    (∀ s : State, encodeFrom s bs = some text ∧
      ∃ t, runInstrs (encodeSeq bs) s = .next t ∧ t.enc.out = s.enc.out ++ text.map .byte ++ [.eos]) ∧
    (bs = [] → text = []) ∧
    appended .enc (endWith .enc bs) State.reset = some text

/-- R111: `DECODE`, from any state and for any character codes, appends its result and then `eos`; the result is a function of
the codes alone; it is empty for no codes; right after reset the INIT may be omitted. -/
def Obligations.DecodeIsAFunctionOfTheText : Prop :=
  ∀ cs : List Byte, ∃ bytes : List Byte,
    (∀ s : State, decodeFrom s cs = some bytes ∧
      ∃ t, runInstrs (decodeSeq cs) s = .next t ∧ t.dec.out = s.dec.out ++ bytes.map .byte ++ [.eos]) ∧
    (cs = [] → bytes = []) ∧
    appended .dec (endWith .dec cs) State.reset = some bytes

/-- Chunk boundaries do not exist (R113): a stream pushed in chunks and then finished is the stream pushed in one, command for
command; and a run of two runs of commands is the second from where the first ended (R112: the state is carried). -/
def Obligations.ChunkingDoesNotMatter : Prop :=
  (∀ (u : UnitId) (chunks : List (List Byte)) (s : State),
    runInstrs ([Instr.ofFields u .init 0] ++ (chunks.map (chunk u)).flatten ++ [Instr.ofFields u .finish 0]) s =
      runInstrs (oneShot u chunks.flatten) s) ∧
  (∀ (u : UnitId) (xs ys : List Byte) (s : State), ∃ t,
    runInstrs (chunk u xs) s = .next t ∧ runInstrs (chunk u (xs ++ ys)) s = runInstrs (chunk u ys) t)

/-- R119: for all byte sequences, decoding the encoding gives them back, whatever the states the two units start from. The
converse fails: the text `A` decodes to the byte 0, which encodes to `AA`. -/
def Obligations.DecodeUndoesEncode : Prop :=
  (∀ (s s' : State) (bs : List Byte), ∃ text, encodeFrom s bs = some text ∧ decodeFrom s' text = some bs) ∧
  (∀ s : State, decodeFrom s [0x41] = some [0x00] ∧ encodeFrom s [0x00] = some [0x41, 0x41])

/-- R120: empty input appends only `eos`, and text that is pure whitespace decodes like empty text. -/
def Obligations.EmptyInputAppendsOnlyEos : Prop :=
  ∀ s : State,
    runInstrs (encodeSeq []) s = .next { s with enc :=
      { s.enc with acc := 0, bits := 0, isOpen := false, out := s.enc.out ++ [.eos] } } ∧
    runInstrs (decodeSeq []) s = .next { s with dec :=
      { s.dec with acc := 0, bits := 0, pendValid := false, pend := 0, isOpen := false, out := s.dec.out ++ [.eos] } } ∧
    runInstrs (decodeSeq [0x20, 0x20, 0x20]) s = runInstrs (decodeSeq []) s

/-- R121: every character that an encode produces is one of the 91 alphabet characters. -/
def Obligations.EncodeEmitsAlphabetOnly : Prop :=
  ∀ (s : State) (bs : List Byte), ∃ text, encodeFrom s bs = some text ∧ ∀ c ∈ text, c ∈ alphaTable

/-- R122: stripping the characters that `RLUT` does not know changes no decode; in any sequence of commands, a noise character
pushed while DEC is open may be deleted; and the double quote is a symbol, index 90, not noise. -/
def Obligations.NoiseIsTolerated : Prop :=
  (∀ (s : State) (cs : List Byte), ∃ bytes,
    decodeFrom s cs = some bytes ∧ decodeFrom s (stripNoise cs) = some bytes) ∧
  (∀ (before after : List Instr) (c : Byte) (s t : State), runInstrs before s = .next t →
    t.dec.isOpen = true → rlut c = none →
    runInstrs (before ++ .decPush c :: after) s = runInstrs (before ++ after) s) ∧
  rlut 0x22 = some 90

/-- R123: `n` bytes encode to at most `2 * ceil(8n / 13)` characters, and text with `m` symbols decodes to a number of bytes
between the two bounds of the rule. -/
def Obligations.OutputSizeBounds : Prop :=
  (∀ (s : State) (bs : List Byte), ∃ text, encodeFrom s bs = some text ∧
    text.length ≤ 2 * ((8 * bs.length + 12) / 13)) ∧
  (∀ (s : State) (cs : List Byte), ∃ bytes, decodeFrom s cs = some bytes ∧
    13 * ((stripNoise cs).length / 2) / 8 + (stripNoise cs).length % 2 ≤ bytes.length ∧
    bytes.length ≤ 14 * ((stripNoise cs).length / 2) / 8 + (stripNoise cs).length % 2)
end

