-- ==== Sys2Proof/Laws/State.lean ====
section
/-! SUPPORT. One lemma for each field and each update of the state, so that no proof unfolds a record update. -/

namespace Sys2Proof.Machine

variable (b : Byte) (e : Enc) (d : Dec) (s : State) (o : Bool) (ev : PortEvent) (k : ErrKind)
variable (f : Enc → Enc) (g : Dec → Dec)

@[simp] theorem Enc.emit_acc : (e.emit b).acc = e.acc := rfl
@[simp] theorem Enc.emit_bits : (e.emit b).bits = e.bits := rfl
@[simp] theorem Enc.emit_isOpen : (e.emit b).isOpen = e.isOpen := rfl
@[simp] theorem Enc.emit_err : (e.emit b).err = e.err := rfl
@[simp] theorem Enc.emit_out : (e.emit b).out = e.out ++ [.byte b] := rfl

@[simp] theorem Enc.emitEos_acc : e.emitEos.acc = e.acc := rfl
@[simp] theorem Enc.emitEos_bits : e.emitEos.bits = e.bits := rfl
@[simp] theorem Enc.emitEos_isOpen : e.emitEos.isOpen = e.isOpen := rfl
@[simp] theorem Enc.emitEos_err : e.emitEos.err = e.err := rfl
@[simp] theorem Enc.emitEos_out : e.emitEos.out = e.out ++ [.eos] := rfl

@[simp] theorem Enc.clear_acc : (e.clear o).acc = 0 := rfl
@[simp] theorem Enc.clear_bits : (e.clear o).bits = 0 := rfl
@[simp] theorem Enc.clear_isOpen : (e.clear o).isOpen = o := rfl
@[simp] theorem Enc.clear_err : (e.clear o).err = e.err := rfl
@[simp] theorem Enc.clear_out : (e.clear o).out = e.out := rfl

@[simp] theorem Dec.emit_acc : (d.emit b).acc = d.acc := rfl
@[simp] theorem Dec.emit_bits : (d.emit b).bits = d.bits := rfl
@[simp] theorem Dec.emit_pendValid : (d.emit b).pendValid = d.pendValid := rfl
@[simp] theorem Dec.emit_pend : (d.emit b).pend = d.pend := rfl
@[simp] theorem Dec.emit_isOpen : (d.emit b).isOpen = d.isOpen := rfl
@[simp] theorem Dec.emit_err : (d.emit b).err = d.err := rfl
@[simp] theorem Dec.emit_out : (d.emit b).out = d.out ++ [.byte b] := rfl

@[simp] theorem Dec.emitEos_acc : d.emitEos.acc = d.acc := rfl
@[simp] theorem Dec.emitEos_bits : d.emitEos.bits = d.bits := rfl
@[simp] theorem Dec.emitEos_pendValid : d.emitEos.pendValid = d.pendValid := rfl
@[simp] theorem Dec.emitEos_pend : d.emitEos.pend = d.pend := rfl
@[simp] theorem Dec.emitEos_isOpen : d.emitEos.isOpen = d.isOpen := rfl
@[simp] theorem Dec.emitEos_err : d.emitEos.err = d.err := rfl
@[simp] theorem Dec.emitEos_out : d.emitEos.out = d.out ++ [.eos] := rfl

@[simp] theorem Dec.clear_acc : (d.clear o).acc = 0 := rfl
@[simp] theorem Dec.clear_bits : (d.clear o).bits = 0 := rfl
@[simp] theorem Dec.clear_pendValid : (d.clear o).pendValid = false := rfl
@[simp] theorem Dec.clear_pend : (d.clear o).pend = 0 := rfl
@[simp] theorem Dec.clear_isOpen : (d.clear o).isOpen = o := rfl
@[simp] theorem Dec.clear_err : (d.clear o).err = d.err := rfl
@[simp] theorem Dec.clear_out : (d.clear o).out = d.out := rfl

@[simp] theorem onEnc_enc : (onEnc f s).enc = f s.enc := rfl
@[simp] theorem onEnc_dec : (onEnc f s).dec = s.dec := rfl
@[simp] theorem onEnc_input : (onEnc f s).input = s.input := rfl
@[simp] theorem onDec_enc : (onDec g s).enc = s.enc := rfl
@[simp] theorem onDec_dec : (onDec g s).dec = g s.dec := rfl
@[simp] theorem onDec_input : (onDec g s).input = s.input := rfl

@[simp] theorem raise_enc_enc : (raise .enc k s).enc = { s.enc with err := s.enc.err ||| errBit k } := rfl
@[simp] theorem raise_enc_dec : (raise .enc k s).dec = s.dec := rfl
@[simp] theorem raise_dec_enc : (raise .dec k s).enc = s.enc := rfl
@[simp] theorem raise_dec_dec : (raise .dec k s).dec = { s.dec with err := s.dec.err ||| errBit k } := rfl
@[simp] theorem raise_input (u : UnitId) : (raise u k s).input = s.input := by cases u <;> rfl

@[simp] theorem isOpen_enc : isOpen .enc s = s.enc.isOpen := rfl
@[simp] theorem isOpen_dec : isOpen .dec s = s.dec.isOpen := rfl
@[simp] theorem errOf_enc : errOf .enc s = s.enc.err := rfl
@[simp] theorem errOf_dec : errOf .dec s = s.dec.err := rfl
@[simp] theorem outOf_enc : outOf .enc s = s.enc.out := rfl
@[simp] theorem outOf_dec : outOf .dec s = s.dec.out := rfl

@[simp] theorem restart_enc : (restart s).enc = Enc.reset := rfl
@[simp] theorem restart_dec : (restart s).dec = Dec.reset := rfl
@[simp] theorem restart_input : (restart s).input = s.input := rfl
@[simp] theorem present_enc : (present ev s).enc = s.enc := rfl
@[simp] theorem present_dec : (present ev s).dec = s.dec := rfl
@[simp] theorem present_input : (present ev s).input = ev :: s.input := rfl

end Sys2Proof.Machine
end

