-- ==== Sys2Proof/Laws/Ops.lean ====
section
/-! SUPPORT. What each shared operation can do, said once: the bit operations on the accumulators as exact arithmetic
(00_scope.md R4, R5), the loops, the open check, and the port. -/

namespace Sys2Proof.Machine

/-- A merge loses nothing while the shifted value fits the register (R4). -/
theorem mergeBits_toNat_or (acc v : Acc) (bits : Cnt) (h : v.toNat * 2 ^ bits.toNat < 2 ^ 24) :
    (mergeBits acc bits v).toNat = acc.toNat ||| (v.toNat <<< bits.toNat) := by
  rw [mergeBits, BitVec.toNat_or, BitVec.toNat_shiftLeft, Nat.shiftLeft_eq, Nat.mod_eq_of_lt h]

/-- A merge above the buffered bits is an addition (R5). -/
theorem mergeBits_toNat_add (acc v : Acc) (bits : Cnt) (ha : acc.toNat < 2 ^ bits.toNat)
    (h : v.toNat * 2 ^ bits.toNat < 2 ^ 24) :
    (mergeBits acc bits v).toNat = acc.toNat + v.toNat * 2 ^ bits.toNat := by
  rw [mergeBits_toNat_or acc v bits h, Nat.or_comm, ← Nat.shiftLeft_add_eq_or_of_lt ha,
    Nat.shiftLeft_eq, Nat.add_comm]

theorem dropBits_toNat (acc : Acc) (n : Nat) : (dropBits acc n).toNat = acc.toNat / 2 ^ n := by
  simp [dropBits, Nat.shiftRight_eq_div_pow]

/-- The count register holds the sum while it fits 5 bits (R4). -/
theorem countUp_toNat (bits : Cnt) (n : Nat) (h : bits.toNat + n < 32) :
    (countUp bits n).toNat = bits.toNat + n := by
  rw [countUp, BitVec.toNat_add, BitVec.toNat_ofNat]
  omega

/-- The count register holds the difference while it is not negative (R4). -/
theorem countDown_toNat (bits : Cnt) (n : Nat) (h : n ≤ bits.toNat) :
    (countDown bits n).toNat = bits.toNat - n := by
  have := bits.isLt
  rw [countDown, BitVec.toNat_sub, BitVec.toNat_ofNat]
  omega

/-- A loop whose test fails at once does nothing. -/
theorem repeatWhile_of_not {α : Type} (test : α → Bool) (body : α → α) (n : Nat) (a : α)
    (h : test a = false) : repeatWhile test body n a = a := by
  cases n <;> simp [repeatWhile, h]

/-- A loop whose test holds runs its body once and goes on. -/
theorem repeatWhile_of_test {α : Type} (test : α → Bool) (body : α → α) (n : Nat) (a : α)
    (h : test a = true) : repeatWhile test body (n + 1) a = repeatWhile test body n (body a) := by
  simp [repeatWhile, h]

/-- What every round keeps, the loop keeps. -/
theorem repeatWhile_keeps {α : Type} (p : α → Prop) (test : α → Bool) (body : α → α)
    (hp : ∀ a, test a = true → p a → p (body a)) (n : Nat) :
    ∀ a, p a → p (repeatWhile test body n a) := by
  induction n with
  | zero => exact fun a h => h
  | succ n ih =>
    intro a h
    by_cases ht : test a = true
    · rw [repeatWhile_of_test test body n a ht]
      exact ih _ (hp a ht h)
    · rw [repeatWhile_of_not test body _ a (by simpa using ht)]
      exact h

/-- A loop is finished, its test false, once the rounds cover a measure that every round lowers. -/
theorem repeatWhile_done {α : Type} (test : α → Bool) (body : α → α) (μ : α → Nat)
    (hμ : ∀ a, test a = true → μ (body a) < μ a) (n : Nat) :
    ∀ a, μ a ≤ n → test (repeatWhile test body n a) = true → μ (repeatWhile test body n a) = 0 := by
  induction n with
  | zero => exact fun a h _ => Nat.le_zero.mp h
  | succ n ih =>
    intro a h
    by_cases ht : test a = true
    · rw [repeatWhile_of_test test body n a ht]
      have := hμ a ht
      exact ih _ (by omega)
    · rw [repeatWhile_of_not test body _ a (by simpa using ht)]
      exact fun h' => absurd h' ht

/-- The open check on an open unit (R115, decision 1). -/
theorem whenOpen_open (u : UnitId) (run : State → State) (s : State) (h : isOpen u s = true) :
    whenOpen u run s = run s := by
  simp [whenOpen, h]

/-- The open check on a closed unit (R132). -/
theorem whenOpen_closed (u : UnitId) (run : State → State) (s : State) (h : isOpen u s = false) :
    whenOpen u run s = raise u .closed s := by
  simp [whenOpen, h]

/-- All that taking an event can do (R33). -/
theorem takeEvent_cases (s : State) :
    (s.input = [] ∧ takeEvent s = none) ∨
      ∃ ev rest, s.input = ev :: rest ∧ takeEvent s = some (ev, { s with input := rest }) := by
  rcases h : s.input with _ | ⟨ev, rest⟩
  · exact .inl ⟨rfl, by simp [takeEvent, h]⟩
  · exact .inr ⟨ev, rest, rfl, by simp [takeEvent, h]⟩

/-- An event put at the front is the next one taken. -/
theorem takeEvent_present (ev : PortEvent) (s : State) :
    takeEvent (present ev s) = some (ev, s) := rfl

end Sys2Proof.Machine
end

