-- ==== Sys2Proof/Laws/Operands.lean ====
section
/-! SUPPORT. The tables (30_encoding.md R54, R55), the pair value (R56), the group width (R57) and the operands (R58, R59) as
plain arithmetic. -/

namespace Sys2Proof.Machine

theorem alphaTable_length : alphaTable.length = 91 := by decide

/-- An index below 91 reads an entry of the table (R31). -/
theorem alpha_eq_getElem (i : Nat) (h : i < 91) :
    alpha i = alphaTable[i]'(by rw [alphaTable_length]; exact h) := by
  simp [alpha, alphaTable_length, h]

/-- What `ALPHA` gives at an index below 91 is an alphabet character (R31). -/
theorem alpha_mem (i : Nat) (h : i < 91) : alpha i ∈ alphaTable := by
  rw [alpha_eq_getElem i h]
  exact List.getElem_mem _

/-- The lookup answers an index 0 to 90 (R32). -/
theorem rlut_le (c : Byte) (i : Sym) (h : rlut c = some i) : i.toNat ≤ 90 := by
  revert h i c
  decide

/-- The lookup undoes the table (R32). -/
theorem rlut_alpha (i : Nat) (h : i < 91) : rlut (alpha i) = some (BitVec.ofNat 7 i) := by
  revert h
  revert i
  decide

theorem encOperand_toNat (d : Byte) : (encOperand d).toNat = d.toNat := by
  have := d.isLt
  simp only [encOperand, BitVec.toNat_setWidth]
  omega

theorem mask13_toNat (v : Acc) : (v &&& mask13).toNat = v.toNat % 8192 := by
  rw [BitVec.toNat_and]
  exact Nat.and_two_pow_sub_one_eq_mod _ 13

theorem mask14_toNat (v : Acc) : (v &&& mask14).toNat = v.toNat % 16384 := by
  rw [BitVec.toNat_and]
  exact Nat.and_two_pow_sub_one_eq_mod _ 14

/-- The width test looks at the low 13 bits (R57). -/
theorem isShort_iff (v : Acc) : isShort v = true ↔ 88 < v.toNat % 8192 := by
  rw [isShort, decide_eq_true_iff, gt_iff_lt, BitVec.lt_def, mask13_toNat]
  rfl

/-- A short group: 13 bits (R57). -/
theorem group_short (v : Acc) (h : 88 < v.toNat % 8192) :
    groupWidth v = 13 ∧ (groupValue v).toNat = v.toNat % 8192 := by
  have hs := (isShort_iff v).mpr h
  exact ⟨by simp [groupWidth, hs, wShort], by rw [groupValue, if_pos hs, mask13_toNat]⟩

/-- A long group: 14 bits (R57). -/
theorem group_long (v : Acc) (h : v.toNat % 8192 ≤ 88) :
    groupWidth v = 14 ∧ (groupValue v).toNat = v.toNat % 16384 := by
  have hs : isShort v = false := by
    rw [← Bool.not_eq_true, isShort_iff]
    omega
  exact ⟨by simp [groupWidth, hs, wLong], by rw [groupValue, if_neg (by simp [hs]), mask14_toNat]⟩

theorem groupWidth_eq (v : Acc) : groupWidth v = if 88 < v.toNat % 8192 then 13 else 14 := by
  split
  · exact (group_short v ‹_›).1
  · exact (group_long v (by omega)).1

/-- The symbols are 7 bits wide, so the pair value never leaves the register. -/
theorem pairValue_toNat (lo hi : Sym) : (pairValue lo hi).toNat = lo.toNat + hi.toNat * 91 := by
  have := lo.isLt
  have := hi.isLt
  simp only [pairValue, nAlpha, BitVec.toNat_add, BitVec.toNat_mul, BitVec.toNat_setWidth,
    BitVec.toNat_ofNat]
  omega

end Sys2Proof.Machine
end

