-- ==== Sys2Proof/Laws/Decoder.lean ====
section
/-! SUPPORT. What the decoder's operations do (41_decoder.md): hold, merge, one byte, the loop of R94, the flush. -/

namespace Sys2Proof.Machine

variable (c : Byte) (d : Dec) (idx : Sym) (v : Acc)

@[simp] theorem Dec.hold_isOpen : (d.hold idx).isOpen = d.isOpen := rfl
@[simp] theorem Dec.hold_err : (d.hold idx).err = d.err := rfl
@[simp] theorem Dec.hold_out : (d.hold idx).out = d.out := rfl
@[simp] theorem Dec.hold_acc : (d.hold idx).acc = d.acc := rfl
@[simp] theorem Dec.hold_bits : (d.hold idx).bits = d.bits := rfl
@[simp] theorem Dec.hold_pend : (d.hold idx).pend = idx := rfl
@[simp] theorem Dec.hold_pendValid : (d.hold idx).pendValid = true := rfl
@[simp] theorem Dec.mergePair_isOpen : (d.mergePair v).isOpen = d.isOpen := rfl
@[simp] theorem Dec.mergePair_err : (d.mergePair v).err = d.err := rfl
@[simp] theorem Dec.mergePair_out : (d.mergePair v).out = d.out := rfl
@[simp] theorem Dec.emitByte_acc : d.emitByte.acc = dropBits d.acc 8 := rfl
@[simp] theorem Dec.emitByte_bits : d.emitByte.bits = countDown d.bits 8 := rfl
@[simp] theorem Dec.emitByte_isOpen : d.emitByte.isOpen = d.isOpen := rfl
@[simp] theorem Dec.emitByte_err : d.emitByte.err = d.err := rfl
@[simp] theorem Dec.emitByte_out : d.emitByte.out = d.out ++ [.byte (d.acc.setWidth 8)] := rfl
@[simp] theorem Dec.combine_pend : (d.combine idx).pend = 0 := rfl
@[simp] theorem Dec.combine_pendValid : (d.combine idx).pendValid = false := rfl

theorem byteReady_iff : byteReady d = true ↔ 7 < d.bits.toNat := by
  rw [byteReady, decide_eq_true_iff, gt_iff_lt, BitVec.lt_def]
  rfl

/-- The low byte of the accumulator (R96). -/
theorem lowByte_eq (a : Acc) : a.setWidth 8 = BitVec.ofNat 8 a.toNat := by
  apply BitVec.eq_of_toNat_eq
  simp

/-- The merge of a pair with at most 7 bits buffered (R94, R95). -/
theorem Dec.mergePair_toNat (h : d.bits.toNat ≤ 7) (hv : v.toNat < 2 ^ 14) :
    (d.mergePair v).acc.toNat = (d.acc.toNat ||| (v.toNat <<< d.bits.toNat)) ∧
      (d.mergePair v).bits.toNat = d.bits.toNat + groupWidth v := by
  have hp : 2 ^ d.bits.toNat ≤ 2 ^ 7 := Nat.pow_le_pow_right (by decide) h
  have hw : groupWidth v ≤ 14 := by rw [groupWidth_eq]; split <;> omega
  exact ⟨mergeBits_toNat_or _ _ _ (by nlinarith), countUp_toNat _ _ (by omega)⟩

/-- The rounds of the loop suffice for every value of the count register. -/
theorem decCombineLoop_done : byteReady (repeatWhile byteReady Dec.emitByte decRounds d) = false := by
  have hb := d.bits.isLt
  rw [Bool.eq_false_iff]
  intro hf
  have := repeatWhile_done byteReady Dec.emitByte (fun a => a.bits.toNat / 8)
    (fun a ha => by
      have h7 := (byteReady_iff a).mp ha
      show (countDown a.bits 8).toNat / 8 < a.bits.toNat / 8
      rw [countDown_toNat _ _ (by omega)]
      omega) decRounds d (by simp only [decRounds]; omega) hf
  have := (byteReady_iff _).mp hf
  omega

/-- After a merge that leaves 8 to 15 bits, one byte goes out (R97). -/
theorem Dec.combine_one_byte (h : 8 ≤ (d.mergePair (pairValue d.pend idx)).bits.toNat)
    (h' : (d.mergePair (pairValue d.pend idx)).bits.toNat ≤ 15) :
    d.combine idx =
      { (d.mergePair (pairValue d.pend idx)).emitByte with pendValid := false, pend := 0 } := by
  rw [Dec.combine, decRounds, repeatWhile_of_test _ _ _ _ ((byteReady_iff _).mpr (by omega)),
    repeatWhile_of_not]
  rw [← Bool.not_eq_true, byteReady_iff, Dec.emitByte_bits, countDown_toNat _ _ h]
  omega

/-- After a merge that leaves 16 to 23 bits, two bytes go out (R97). -/
theorem Dec.combine_two_bytes (h : 16 ≤ (d.mergePair (pairValue d.pend idx)).bits.toNat)
    (h' : (d.mergePair (pairValue d.pend idx)).bits.toNat ≤ 23) :
    d.combine idx =
      { (d.mergePair (pairValue d.pend idx)).emitByte.emitByte with pendValid := false, pend := 0 } := by
  have hb : (d.mergePair (pairValue d.pend idx)).emitByte.bits.toNat =
      (d.mergePair (pairValue d.pend idx)).bits.toNat - 8 := countDown_toNat _ 8 (by omega)
  rw [Dec.combine, decRounds, repeatWhile_of_test _ _ _ _ ((byteReady_iff _).mpr (by omega)),
    repeatWhile_of_test _ _ _ _ ((byteReady_iff _).mpr (by omega)), repeatWhile_of_not]
  rw [← Bool.not_eq_true, byteReady_iff, Dec.emitByte_bits, countDown_toNat _ _ (by omega)]
  omega

/-- All that a push on an open decoder can do (R91): skip, hold, or combine. -/
theorem Dec.push_cases :
    (rlut c = none ∧ d.push c = d) ∨
      (∃ i, rlut c = some i ∧ d.pendValid = false ∧ d.push c = d.hold i) ∨
      (∃ i, rlut c = some i ∧ d.pendValid = true ∧ d.push c = d.combine i) := by
  rcases h : rlut c with _ | i
  · exact .inl ⟨rfl, by simp [Dec.push, decOperand, h]⟩
  · cases hp : d.pendValid
    · exact .inr (.inl ⟨i, rfl, rfl, by simp [Dec.push, decOperand, h, hp]⟩)
    · exact .inr (.inr ⟨i, rfl, rfl, by simp [Dec.push, decOperand, h, hp]⟩)

@[simp] theorem Dec.combine_isOpen : (d.combine idx).isOpen = d.isOpen :=
  repeatWhile_keeps (fun a : Dec => a.isOpen = d.isOpen) byteReady Dec.emitByte (fun _ _ h => h) decRounds
    (d.mergePair (pairValue d.pend idx)) rfl

@[simp] theorem Dec.combine_err : (d.combine idx).err = d.err :=
  repeatWhile_keeps (fun a : Dec => a.err = d.err) byteReady Dec.emitByte (fun _ _ h => h) decRounds
    (d.mergePair (pairValue d.pend idx)) rfl

@[simp] theorem Dec.push_isOpen : (d.push c).isOpen = d.isOpen := by
  rcases Dec.push_cases c d with ⟨-, h⟩ | ⟨i, -, -, h⟩ | ⟨i, -, -, h⟩ <;> simp [h]

@[simp] theorem Dec.push_err : (d.push c).err = d.err := by
  rcases Dec.push_cases c d with ⟨-, h⟩ | ⟨i, -, -, h⟩ | ⟨i, -, -, h⟩ <;> simp [h]

/-- The flush emits one byte if a symbol is held, and none otherwise (R98). -/
theorem Dec.flush_out : d.flush.out = d.out ++
    (if d.pendValid then [.byte ((mergeBits d.acc d.bits (d.pend.setWidth 24)).setWidth 8)] else []) := by
  cases h : d.pendValid <;> simp [Dec.flush, h]

/-- The byte of the flush, as arithmetic, for every count: what a shift loses at the top of the register is above the low 8
bits (R98). -/
theorem heldByte_eq (acc : Acc) (bits : Cnt) (p : Sym) :
    (mergeBits acc bits (p.setWidth 24)).setWidth 8 =
      BitVec.ofNat 8 ((acc.toNat ||| (p.toNat <<< bits.toNat)) % 256) := by
  apply BitVec.eq_of_toNat_eq
  have hp := p.isLt
  simp only [mergeBits, BitVec.toNat_setWidth, BitVec.toNat_or, BitVec.toNat_shiftLeft, BitVec.toNat_ofNat,
    Nat.mod_mod]
  apply Nat.eq_of_testBit_eq
  intro i
  rw [show (256 : Nat) = 2 ^ 8 from rfl, Nat.testBit_mod_two_pow, Nat.testBit_mod_two_pow]
  by_cases h : i < 8
  · simp only [h, decide_true, Bool.true_and, Nat.testBit_or, Nat.testBit_mod_two_pow, Nat.testBit_shiftLeft]
    simp [show i < 24 by omega, show i - bits.toNat < 24 by omega]
  · simp [h]

/-- A push appends data items only, after every earlier item (R34). -/
theorem Dec.push_appends : ∃ bytes : List Byte, (d.push c).out = d.out ++ bytes.map .byte := by
  rcases Dec.push_cases c d with ⟨-, h⟩ | ⟨i, -, -, h⟩ | ⟨i, -, -, h⟩ <;> rw [h]
  · exact ⟨[], by simp⟩
  · exact ⟨[], by simp⟩
  · exact repeatWhile_keeps (fun a : Dec => ∃ bytes : List Byte, a.out = d.out ++ bytes.map .byte) byteReady
      Dec.emitByte (fun a _ ⟨bytes, hb⟩ => ⟨bytes ++ [_], by
        rw [Dec.emitByte_out, hb, List.map_append, List.append_assoc]; rfl⟩) decRounds
      (d.mergePair (pairValue d.pend i)) ⟨[], by simp⟩

@[simp] theorem Dec.finish_acc : d.finish.acc = 0 := rfl
@[simp] theorem Dec.finish_bits : d.finish.bits = 0 := rfl
@[simp] theorem Dec.finish_pendValid : d.finish.pendValid = false := rfl
@[simp] theorem Dec.finish_pend : d.finish.pend = 0 := rfl
@[simp] theorem Dec.finish_isOpen : d.finish.isOpen = false := rfl
@[simp] theorem Dec.finish_out : d.finish.out = d.flush.out ++ [.eos] := rfl

@[simp] theorem Dec.finish_err : d.finish.err = d.err := by
  show d.flush.err = d.err
  simp only [Dec.flush]
  split_ifs <;> rfl

end Sys2Proof.Machine
end

