-- ==== Sys2Proof/Laws/Encoder.lean ====
section
/-! SUPPORT. What the encoder's operations do (40_encoder.md): accumulate, one group, the loop of R71, the flush. -/

namespace Sys2Proof.Machine

variable (d : Byte) (e : Enc)

@[simp] theorem Enc.accumulate_isOpen : (e.accumulate d).isOpen = e.isOpen := rfl
@[simp] theorem Enc.accumulate_err : (e.accumulate d).err = e.err := rfl
@[simp] theorem Enc.accumulate_out : (e.accumulate d).out = e.out := rfl
@[simp] theorem Enc.group_isOpen : e.group.isOpen = e.isOpen := rfl
@[simp] theorem Enc.group_err : e.group.err = e.err := rfl
@[simp] theorem Enc.group_acc : e.group.acc = dropBits e.acc (groupWidth e.acc) := rfl
@[simp] theorem Enc.group_bits : e.group.bits = countDown e.bits (groupWidth e.acc) := rfl
@[simp] theorem Enc.emitPair_out (v : Nat) :
    (e.emitPair v).out = e.out ++ [.byte (alpha (v % 91)), .byte (alpha (v / 91))] := by
  simp [Enc.emitPair, nAlpha]

@[simp] theorem Enc.group_out : e.group.out =
    e.out ++ [.byte (alpha ((groupValue e.acc).toNat % 91)), .byte (alpha ((groupValue e.acc).toNat / 91))] := by
  simp [Enc.group]

theorem groupReady_iff : groupReady e = true ↔ 13 < e.bits.toNat := by
  rw [groupReady, decide_eq_true_iff, gt_iff_lt, BitVec.lt_def]
  rfl

/-- Step 1 with at most 13 bits buffered (R72). -/
theorem Enc.accumulate_toNat (h : e.bits.toNat ≤ 13) :
    (e.accumulate d).acc.toNat = (e.acc.toNat ||| (d.toNat <<< e.bits.toNat)) ∧
      (e.accumulate d).bits.toNat = e.bits.toNat + 8 := by
  have hd := d.isLt
  have hp : 2 ^ e.bits.toNat ≤ 2 ^ 13 := Nat.pow_le_pow_right (by decide) h
  refine ⟨?_, countUp_toNat _ _ (by simp only [byteW]; omega)⟩
  rw [← encOperand_toNat d]
  exact mergeBits_toNat_or _ _ _ (by rw [encOperand_toNat]; nlinarith)

/-- One group takes 13 or 14 bits from a count of 14 or more (R73). -/
theorem Enc.group_bits_toNat (h : 13 < e.bits.toNat) :
    e.group.bits.toNat = e.bits.toNat - groupWidth e.acc := by
  have hw : groupWidth e.acc ≤ 14 := by rw [groupWidth_eq]; split <;> omega
  exact countDown_toNat _ _ (by omega)

/-- The rounds of the loop suffice for every value of the count register. -/
theorem encPushLoop_done : groupReady (repeatWhile groupReady Enc.group encRounds e) = false := by
  have hb := e.bits.isLt
  have hw : ∀ a : Enc, 13 ≤ groupWidth a.acc := fun a => by rw [groupWidth_eq]; split <;> omega
  rw [Bool.eq_false_iff]
  intro hf
  have := repeatWhile_done groupReady Enc.group (fun a => (a.bits.toNat - 1) / 13)
    (fun a ha => by
      have h13 := (groupReady_iff a).mp ha
      have hg := Enc.group_bits_toNat a h13
      have hwa := hw a
      show (a.group.bits.toNat - 1) / 13 < (a.bits.toNat - 1) / 13
      rw [hg]
      omega) encRounds e (by simp only [encRounds]; omega) hf
  have := (groupReady_iff _).mp hf
  omega

/-- With at most 5 bits buffered, or 13 bits or fewer after the merge, no group goes out (R74). -/
theorem Enc.push_no_group (h : e.bits.toNat ≤ 5) : e.push d = e.accumulate d := by
  have hb := (Enc.accumulate_toNat d e (by omega)).2
  refine repeatWhile_of_not _ _ _ _ ?_
  rw [← Bool.not_eq_true, groupReady_iff]
  omega

/-- With 6 to 13 bits buffered, exactly one group goes out (R74). -/
theorem Enc.push_one_group (h : 6 ≤ e.bits.toNat) (h' : e.bits.toNat ≤ 13) :
    e.push d = (e.accumulate d).group := by
  have hb := (Enc.accumulate_toNat d e h').2
  have hg := Enc.group_bits_toNat (e.accumulate d) (by omega)
  have hw : 13 ≤ groupWidth (e.accumulate d).acc := by rw [groupWidth_eq]; split <;> omega
  rw [Enc.push, encRounds, repeatWhile_of_test _ _ _ _ ((groupReady_iff _).mpr (by omega))]
  refine repeatWhile_of_not _ _ _ _ ?_
  rw [← Bool.not_eq_true, groupReady_iff]
  omega

@[simp] theorem Enc.push_isOpen : (e.push d).isOpen = e.isOpen :=
  repeatWhile_keeps (fun a : Enc => a.isOpen = e.isOpen) groupReady Enc.group (fun _ _ h => h) encRounds (e.accumulate d) rfl

@[simp] theorem Enc.push_err : (e.push d).err = e.err :=
  repeatWhile_keeps (fun a : Enc => a.err = e.err) groupReady Enc.group (fun _ _ h => h) encRounds (e.accumulate d) rfl

/-- A push appends data items only, after every earlier item (R34). -/
theorem Enc.push_appends : ∃ text : List Byte, (e.push d).out = e.out ++ text.map .byte :=
  repeatWhile_keeps (fun a : Enc => ∃ text : List Byte, a.out = e.out ++ text.map .byte) groupReady Enc.group
    (fun a _ ⟨text, ht⟩ => ⟨text ++ [_, _], by
      rw [Enc.group_out, ht, List.map_append, List.append_assoc]; rfl⟩) encRounds (e.accumulate d) ⟨[], by simp⟩

@[simp] theorem Enc.flush_isOpen : e.flush.isOpen = e.isOpen := by
  simp only [Enc.flush]; split_ifs <;> rfl

@[simp] theorem Enc.flush_err : e.flush.err = e.err := by
  simp only [Enc.flush]; split_ifs <;> rfl

/-- The three outcomes of the flush (R76). -/
theorem Enc.flush_out : e.flush.out = e.out ++
    (if e.bits.toNat = 0 then []
     else if 7 < e.bits.toNat ∨ 90 < e.acc.toNat then
       [.byte (alpha (e.acc.toNat % 91)), .byte (alpha (e.acc.toNat / 91))]
     else [.byte (alpha (e.acc.toNat % 91))]) := by
  have h1 : flushAny e = true ↔ ¬ e.bits.toNat = 0 := by
    rw [flushAny, decide_eq_true_iff, gt_iff_lt, BitVec.lt_def]
    exact Nat.pos_iff_ne_zero
  have h2 : flushSecond e = true ↔ (7 < e.bits.toNat ∨ 90 < e.acc.toNat) := by
    rw [flushSecond, Bool.or_eq_true, decide_eq_true_iff, decide_eq_true_iff, gt_iff_lt, gt_iff_lt,
      BitVec.lt_def, BitVec.lt_def]
    rfl
  unfold Enc.flush
  by_cases hb : e.bits.toNat = 0
  · rw [if_neg (by rw [h1]; simpa using hb), if_pos hb, List.append_nil]
  · rw [if_pos (h1.mpr hb), if_neg hb]
    by_cases ha : 7 < e.bits.toNat ∨ 90 < e.acc.toNat
    · rw [if_pos (h2.mpr ha), if_pos ha, Enc.emitPair_out]
    · rw [if_neg (by rw [h2]; exact ha), if_neg ha, Enc.emit_out, nAlpha]

@[simp] theorem Enc.finish_acc : e.finish.acc = 0 := rfl
@[simp] theorem Enc.finish_bits : e.finish.bits = 0 := rfl
@[simp] theorem Enc.finish_isOpen : e.finish.isOpen = false := rfl
@[simp] theorem Enc.finish_err : e.finish.err = e.err := by simp [Enc.finish]
@[simp] theorem Enc.finish_out : e.finish.out = e.flush.out ++ [.eos] := rfl

end Sys2Proof.Machine
end

