-- ==== Sys2Proof/Laws/PerInstr.lean ====
section
/-! SUPPORT. The statements made for every instruction: its three fields (30_encoding.md R50) and its row of the opcode map
(R51). -/

namespace Sys2Proof.Laws

/-- The unit, the operation and the data field are all there is to a command (R50). -/
def Fields.Statement (i : Instr) : Prop :=
  Instr.ofFields i.unit i.op i.data = i

theorem Fields.encPush (d : Byte) : Fields.Statement (.encPush d) := rfl
theorem Fields.encEnd (x : Byte) : Fields.Statement (.encEnd x) := rfl
theorem Fields.encInit (x : Byte) : Fields.Statement (.encInit x) := rfl
theorem Fields.encRsvd (x : Byte) : Fields.Statement (.encRsvd x) := rfl
theorem Fields.decPush (c : Byte) : Fields.Statement (.decPush c) := rfl
theorem Fields.decEnd (x : Byte) : Fields.Statement (.decEnd x) := rfl
theorem Fields.decInit (x : Byte) : Fields.Statement (.decInit x) := rfl
theorem Fields.decRsvd (x : Byte) : Fields.Statement (.decRsvd x) := rfl

/-- The encoded word has its row's `match` under the map's one mask, whatever the data field (R51). -/
def OpcodeRow.Statement (i : Instr) : Prop :=
  encode i &&& opcodeMask = opcodeMatch i.unit i.op

theorem OpcodeRow.encPush (d : Byte) : OpcodeRow.Statement (.encPush d) := by
  revert d; unfold OpcodeRow.Statement; decide
theorem OpcodeRow.encEnd (x : Byte) : OpcodeRow.Statement (.encEnd x) := by
  revert x; unfold OpcodeRow.Statement; decide
theorem OpcodeRow.encInit (x : Byte) : OpcodeRow.Statement (.encInit x) := by
  revert x; unfold OpcodeRow.Statement; decide
theorem OpcodeRow.encRsvd (x : Byte) : OpcodeRow.Statement (.encRsvd x) := by
  revert x; unfold OpcodeRow.Statement; decide
theorem OpcodeRow.decPush (c : Byte) : OpcodeRow.Statement (.decPush c) := by
  revert c; unfold OpcodeRow.Statement; decide
theorem OpcodeRow.decEnd (x : Byte) : OpcodeRow.Statement (.decEnd x) := by
  revert x; unfold OpcodeRow.Statement; decide
theorem OpcodeRow.decInit (x : Byte) : OpcodeRow.Statement (.decInit x) := by
  revert x; unfold OpcodeRow.Statement; decide
theorem OpcodeRow.decRsvd (x : Byte) : OpcodeRow.Statement (.decRsvd x) := by
  revert x; unfold OpcodeRow.Statement; decide

end Sys2Proof.Laws
end

