-- ==== Sys2Proof/Laws/Step.lean ====
section
/-! SUPPORT. The inversion lemmas: everything that `exec`, `step` and a run of commands can do. -/

namespace Sys2Proof.Machine

/-- The state a command answers (R160: every command completes). -/
def afterExec (i : Instr) (s : State) : State :=
  match exec i s with
  | .next t => t
  | _ => s

/-- Every command answers a next state, whatever the state before (R160). -/
theorem exec_eq (i : Instr) (s : State) : exec i s = .next (afterExec i s) := by
  cases i <;> rfl

section
variable (s : State) (x : Byte)

theorem afterExec_encPush_open (h : s.enc.isOpen = true) :
    afterExec (.encPush x) s = onEnc (Enc.push x) s := whenOpen_open .enc _ s h
theorem afterExec_encPush_closed (h : s.enc.isOpen = false) :
    afterExec (.encPush x) s = raise .enc .closed s := whenOpen_closed .enc _ s h
theorem afterExec_encEnd_open (h : s.enc.isOpen = true) :
    afterExec (.encEnd x) s = onEnc Enc.finish s := whenOpen_open .enc _ s h
theorem afterExec_encEnd_closed (h : s.enc.isOpen = false) :
    afterExec (.encEnd x) s = raise .enc .closed s := whenOpen_closed .enc _ s h
theorem afterExec_encInit : afterExec (.encInit x) s = onEnc (Enc.clear true) s := rfl
theorem afterExec_encRsvd : afterExec (.encRsvd x) s = raise .enc .illegal s := rfl
theorem afterExec_decPush_open (h : s.dec.isOpen = true) :
    afterExec (.decPush x) s = onDec (Dec.push x) s := whenOpen_open .dec _ s h
theorem afterExec_decPush_closed (h : s.dec.isOpen = false) :
    afterExec (.decPush x) s = raise .dec .closed s := whenOpen_closed .dec _ s h
theorem afterExec_decEnd_open (h : s.dec.isOpen = true) :
    afterExec (.decEnd x) s = onDec Dec.finish s := whenOpen_open .dec _ s h
theorem afterExec_decEnd_closed (h : s.dec.isOpen = false) :
    afterExec (.decEnd x) s = raise .dec .closed s := whenOpen_closed .dec _ s h
theorem afterExec_decInit : afterExec (.decInit x) s = onDec (Dec.clear true) s := rfl
theorem afterExec_decRsvd : afterExec (.decRsvd x) s = raise .dec .illegal s := rfl

/-- All that a command can do: raise a fault on its unit, or, its unit permitting, one of six changes to that unit. -/
theorem afterExec_cases (i : Instr) (s : State) :
    (∃ k, afterExec i s = raise i.unit k s) ∨
      (i.unit = .enc ∧ ((∃ d, i = .encPush d ∧ s.enc.isOpen = true ∧ afterExec i s = onEnc (Enc.push d) s) ∨
        (∃ y, i = .encEnd y ∧ s.enc.isOpen = true ∧ afterExec i s = onEnc Enc.finish s) ∨
        (∃ y, i = .encInit y ∧ afterExec i s = onEnc (Enc.clear true) s))) ∨
      (i.unit = .dec ∧ ((∃ c, i = .decPush c ∧ s.dec.isOpen = true ∧ afterExec i s = onDec (Dec.push c) s) ∨
        (∃ y, i = .decEnd y ∧ s.dec.isOpen = true ∧ afterExec i s = onDec Dec.finish s) ∨
        (∃ y, i = .decInit y ∧ afterExec i s = onDec (Dec.clear true) s))) := by
  cases he : s.enc.isOpen <;> cases hd : s.dec.isOpen <;> cases i <;>
    first
      | exact .inl ⟨.illegal, rfl⟩
      | exact .inl ⟨.closed, afterExec_encPush_closed s _ he⟩
      | exact .inl ⟨.closed, afterExec_encEnd_closed s _ he⟩
      | exact .inl ⟨.closed, afterExec_decPush_closed s _ hd⟩
      | exact .inl ⟨.closed, afterExec_decEnd_closed s _ hd⟩
      | exact .inr (.inl ⟨rfl, .inl ⟨_, rfl, rfl, afterExec_encPush_open s _ he⟩⟩)
      | exact .inr (.inl ⟨rfl, .inr (.inl ⟨_, rfl, rfl, afterExec_encEnd_open s _ he⟩)⟩)
      | exact .inr (.inl ⟨rfl, .inr (.inr ⟨_, rfl, rfl⟩)⟩)
      | exact .inr (.inr ⟨rfl, .inl ⟨_, rfl, rfl, afterExec_decPush_open s _ hd⟩⟩)
      | exact .inr (.inr ⟨rfl, .inr (.inl ⟨_, rfl, rfl, afterExec_decEnd_open s _ hd⟩)⟩)
      | exact .inr (.inr ⟨rfl, .inr (.inr ⟨_, rfl, rfl⟩)⟩)

end

/-- No command reads or writes what the host has still to present. -/
theorem afterExec_withInput (i : Instr) (s : State) (r : List PortEvent) :
    afterExec i { s with input := r } = { afterExec i s with input := r } := by
  have hw : ∀ (u : UnitId) (run : State → State), (∀ t q, run { t with input := q } = { run t with input := q }) →
      whenOpen u run { s with input := r } = { whenOpen u run s with input := r } := by
    intro u run hrun
    cases ho : isOpen u s
    · rw [whenOpen_closed u run s ho, whenOpen_closed u run _ (by cases u <;> exact ho)]
      cases u <;> rfl
    · rw [whenOpen_open u run s ho, whenOpen_open u run _ (by cases u <;> exact ho)]
      exact hrun s r
  cases i <;> first | rfl | exact hw _ _ (fun _ _ => rfl)

/-- Inversion of `exec`. -/
theorem exec_next {i : Instr} {s t : State} (h : exec i s = .next t) : t = afterExec i s := by
  rw [exec_eq] at h
  exact (Host.Outcome.next.inj h).symm

/-- All that a step can do: idle, run the next command, or reset. -/
theorem step_cases (s : State) :
    (s.input = [] ∧ step s = .next s) ∨
      (∃ w rest, s.input = .command w :: rest ∧ step s = exec (decode w) { s with input := rest }) ∨
      (∃ rest, s.input = .reset :: rest ∧ step s = .next (restart { s with input := rest })) := by
  rcases takeEvent_cases s with ⟨h, ht⟩ | ⟨ev, rest, h, ht⟩
  · exact .inl ⟨h, by simp [step, ht]⟩
  · cases ev with
    | command w => exact .inr (.inl ⟨w, rest, h, by simp [step, ht]⟩)
    | reset => exact .inr (.inr ⟨rest, h, by simp [step, ht]⟩)

/-- A run of commands folds `afterExec`. -/
theorem runInstrs_eq (is : List Instr) (s : State) :
    runInstrs is s = .next (is.foldl (fun t i => afterExec i t) s) := by
  induction is generalizing s with
  | nil => rfl
  | cons i is ih => simp only [runInstrs, exec_eq, ih, List.foldl_cons]

/-- What one command keeps, a run keeps. -/
theorem afterExec_foldl_keeps (p : State → Prop) (hp : ∀ i s, p s → p (afterExec i s)) (is : List Instr) :
    ∀ s, p s → p (is.foldl (fun t i => afterExec i t) s) := by
  induction is with
  | nil => exact fun s h => h
  | cons i is ih => exact fun s h => ih _ (hp i s h)

end Sys2Proof.Machine
end

