-- ==== Sys2Proof/Laws/Sequences.lean ====
section
/-! SUPPORT. Runs of commands (42_sequences.md): a chunk is a fold of pushes over its unit, and the data items of a stream. -/

namespace Sys2Proof.Machine

/-- A chunk to an open encoder folds its pushes over the unit and leaves the rest of the state (R112). -/
theorem runInstrs_chunk_enc (bs : List Byte) : ∀ s : State, s.enc.isOpen = true →
    runInstrs (chunk .enc bs) s = .next (onEnc (fun e => bs.foldl (fun a b => a.push b) e) s) := by
  induction bs with
  | nil => exact fun s _ => rfl
  | cons b bs ih =>
    intro s ho
    simp only [chunk, List.map_cons, runInstrs, exec_eq, Instr.ofFields]
    rw [afterExec_encPush_open s b ho]
    exact ih (onEnc (Enc.push b) s) (by simpa using ho)

/-- A chunk to an open decoder folds its pushes over the unit and leaves the rest of the state (R112). -/
theorem runInstrs_chunk_dec (cs : List Byte) : ∀ s : State, s.dec.isOpen = true →
    runInstrs (chunk .dec cs) s = .next (onDec (fun d => cs.foldl (fun a c => a.push c) d) s) := by
  induction cs with
  | nil => exact fun s _ => rfl
  | cons c cs ih =>
    intro s ho
    simp only [chunk, List.map_cons, runInstrs, exec_eq, Instr.ofFields]
    rw [afterExec_decPush_open s c ho]
    exact ih (onDec (Dec.push c) s) (by simpa using ho)

/-- The data items before an `eos` are read back from the stream (R110, R111). -/
theorem dataItems_bytes_eos (bytes : List Byte) (rest : List Item) :
    dataItems (bytes.map .byte ++ .eos :: rest) = bytes := by
  induction bytes with
  | nil => rfl
  | cons b bytes ih => simp [dataItems, ih]

end Sys2Proof.Machine
end

