-- ==== Sys2Proof/Tests/Slice0.lean ====
section
/-! SUPPORT. The model's own tests. Expected values are from 95_test_vectors.md (its row is named) or written out by hand from
the rules; the witnesses at the end show that the hypotheses of each statement can be met. -/

namespace Sys2Proof.Tests

open Sys2Proof Sys2Proof.Machine

/-- The next state of an outcome. -/
def nextOf : Host.Outcome State Fault Refusal → Option State
  | .next s => some s
  | _ => none

/-- The reset state with the encoder's buffered bits replaced. -/
def encAt (acc : Acc) (bits : Cnt) : State :=
  { State.reset with enc := { Enc.reset with acc := acc, bits := bits } }

/-- The reset state with the decoder's buffered bits and pending symbol replaced. -/
def decAt (acc : Acc) (bits : Cnt) (pendValid : Bool) (pend : Sym) : State :=
  { State.reset with dec := { Dec.reset with acc := acc, bits := bits, pendValid := pendValid, pend := pend } }

/-- The reset state with both units closed. -/
def bothClosed : State :=
  { State.reset with enc := { Enc.reset with isOpen := false }, dec := { Dec.reset with isOpen := false } }

/-- What `ENC` shows after a command: accumulator, count, stream. -/
def encView (o : Host.Outcome State Fault Refusal) : Option (Acc × Cnt × List Item) :=
  (nextOf o).map (fun s => (s.enc.acc, s.enc.bits, s.enc.out))

/-- What `DEC` shows after a command: accumulator, count, pending symbol, stream. -/
def decView (o : Host.Outcome State Fault Refusal) : Option (Acc × Cnt × Bool × Sym × List Item) :=
  (nextOf o).map (fun s => (s.dec.acc, s.dec.bits, s.dec.pendValid, s.dec.pend, s.dec.out))

/-! ### Well-formedness: an ill-formed term for each check (R52, R62) -/

theorem test_wf_refuses_encEnd : (Instr.encEnd 0xAB).wellFormed = false := by decide
theorem test_wf_refuses_encInit : (Instr.encInit 0xFF).wellFormed = false := by decide
theorem test_wf_refuses_encRsvd : (Instr.encRsvd 0x01).wellFormed = false := by decide
theorem test_wf_refuses_decEnd : (Instr.decEnd 0x80).wellFormed = false := by decide
theorem test_wf_refuses_decInit : (Instr.decInit 0x10).wellFormed = false := by decide
theorem test_wf_refuses_decRsvd : (Instr.decRsvd 0xFF).wellFormed = false := by decide
theorem test_wf_accepts_canonical :
    (Instr.encEnd 0).wellFormed = true ∧ (Instr.encPush 0xFF).wellFormed = true ∧
      (Instr.decPush 0x00).wellFormed = true := by decide

/-! ### Decoding: one word for each row, bit by bit from the patterns of R51 -/

theorem test_decode_encPush : decode 0b00001001000 = .encPush 0x48 := by decide
theorem test_decode_encEnd : decode 0b00100000000 = .encEnd 0 := by decide
theorem test_decode_encInit : decode 0b01000000000 = .encInit 0 := by decide
theorem test_decode_encRsvd : decode 0b01110101011 = .encRsvd 0xAB := by decide
theorem test_decode_decPush : decode 0b10000111110 = .decPush 0x3E := by decide
theorem test_decode_decEnd : decode 0b10100000000 = .decEnd 0 := by decide
theorem test_decode_decInit : decode 0b11000000000 = .decInit 0 := by decide
theorem test_decode_decRsvd : decode 0b11111111111 = .decRsvd 0xFF := by decide
theorem test_encode_canonical :
    encode (.encPush 0x65) = 0x065 ∧ encode (.decPush 0x4A) = 0x44A ∧ encode (.decEnd 0) = 0x500 := by decide
theorem test_table_word_decodes : decodeTableWord 16 0x44A = some (.decPush 0x4A) := by decide
theorem test_table_word_wider_than_port : decodeTableWord 16 0x800 = none := by decide
theorem test_withFetchWord_runs_it :
    nextOf (step (State.reset.withFetchWord 16 0x1AB)) = nextOf (exec (.encEnd 0xAB) State.reset) := by decide

/-! ### One step of each command -/

/-- T1.9: a long group of the largest value, 8280. -/
theorem test_encPush_long_group :
    encView (exec (.encPush 0x20) (encAt 0x58 8)) = some (0, 2, [.byte 0x22, .byte 0x22]) := by decide

/-- T1.11: 21 bits, and one group only. -/
theorem test_encPush_one_group_only :
    encView (exec (.encPush 0xFF) (encAt 0x1FFF 13)) = some (0xFF, 8, [.byte 0x42, .byte 0x22]) := by decide

/-- T2.7: 7 bits of value 91 need a second symbol. -/
theorem test_encEnd_second_symbol_by_value :
    encView (exec (.encEnd 0) (encAt 0x5B 7)) = some (0, 0, [.byte 0x41, .byte 0x42, .eos]) := by decide

/-- T2.9: 8 bits of value 0 need a second symbol. -/
theorem test_encEnd_second_symbol_by_count :
    encView (exec (.encEnd 0) (encAt 0 8)) = some (0, 0, [.byte 0x41, .byte 0x41, .eos]) := by decide

/-- R70, its example. -/
theorem test_encInit_drops_bits :
    encView (exec (.encInit 0) (encAt 0x363 11)) = some (0, 0, []) := by decide

/-- T7.9: a reserved word to a closed unit sets only `err[1]`. -/
theorem test_encRsvd_closed :
    (nextOf (exec (.encRsvd 0) bothClosed)).map (fun s => (s.enc.err, s.enc.isOpen, s.enc.out)) =
      some (0b10, false, []) := by decide

/-- T4.17: a short group, two bytes, 4 bits left. -/
theorem test_decPush_two_bytes :
    decView (exec (.decPush 0x22) (decAt 0x7F 7 true 1)) =
      some (0xF, 4, false, 0, [.byte 0xFF, .byte 0xFF]) := by decide

/-- T4.12: value 8192 takes 14 bits. -/
theorem test_decPush_bit13 :
    decView (exec (.decPush 0x22) (decAt 0 0 true 2)) = some (0x20, 6, false, 0, [.byte 0x00]) := by decide

/-- T5.7: the held symbol on top of 5 bits. -/
theorem test_decEnd_held_symbol :
    decView (exec (.decEnd 0) (decAt 0x15 5 true 7)) = some (0, 0, false, 0, [.byte 0xF5, .eos]) := by decide

/-- T5.3: leftover bits are dropped. -/
theorem test_decEnd_drops_bits :
    decView (exec (.decEnd 0) (decAt 0x7F 7 false 0)) = some (0, 0, false, 0, [.eos]) := by decide

/-- R90, its example. -/
theorem test_decInit_drops_symbol :
    decView (exec (.decInit 0) (decAt 0x05 5 true 48)) = some (0, 0, false, 0, []) := by decide

/-- T7.8: the reserved row of DEC, data ignored. -/
theorem test_decRsvd :
    (nextOf (exec (.decRsvd 0xFF) State.reset)).map (fun s => (s.dec.err, s.enc.err)) = some (0b10, 0) := by decide

/-- R159, its example: the joined texts of two encodings decode to something else. -/
theorem test_streams_do_not_concatenate :
    encodeFrom State.reset [0x61] = some [0x47, 0x42] ∧
      decodeFrom State.reset [0x47, 0x42, 0x47, 0x42] = some [0x61, 0x20, 0x0C] := by decide

/-- R62: a number in either form or a quoted character, blanks, a comment. -/
theorem test_assemble_forms :
    assembleWords " ENC.PUSH 72 ; a byte".toList = some [0x048] ∧
      assembleWords "DEC.PUSH ';'".toList = some [0x43B] ∧
      assembleWords "DECODE 'G' 0x42".toList = some [0x600, 0x447, 0x442, 0x500] ∧
      assembleWords "ENC.PUSH 256".toList = none := by decide

/-! ### Witnesses: the hypotheses of each statement, met, at the boundary values of each clause -/

/-- OpcodeMapSelectsTheRow: a word for each of its eight hypotheses. -/
theorem witness_opcode_rows :
    (0x0FF : Cmd) &&& 0x700 = 0x000 ∧ (0x1FF : Cmd) &&& 0x700 = 0x100 ∧ (0x2FF : Cmd) &&& 0x700 = 0x200 ∧
      (0x3FF : Cmd) &&& 0x700 = 0x300 ∧ (0x4FF : Cmd) &&& 0x700 = 0x400 ∧ (0x5FF : Cmd) &&& 0x700 = 0x500 ∧
      (0x6FF : Cmd) &&& 0x700 = 0x600 ∧ (0x7FF : Cmd) &&& 0x700 = 0x700 := by decide

/-- CanonicalTextAssembles: a canonical command with a text. -/
theorem witness_canonical_text :
    (Instr.encPush 0xFF).wellFormed = true ∧ asmText (.encPush 0xFF) = some "ENC.PUSH 0xFF".toList ∧
      (Instr.decEnd 0).wellFormed = true ∧ asmText (.decEnd 0) = some "DEC.END".toList := by decide

/-- AlphabetTableIsAsListed: the ends of each range, with the codes R54 lists there. -/
theorem witness_alphabet_ranges :
    alpha 0 = 0x41 ∧ alpha 25 = 0x5A ∧ alpha 26 = 0x61 ∧ alpha 51 = 0x7A ∧ alpha 52 = 0x30 ∧ alpha 61 = 0x39 ∧
      alpha 62 = 0x21 ∧ alpha 85 = 0x60 ∧ alpha 90 = 0x22 := by decide

/-- ReverseLookupUndoesAlphabet: the ends of each range, and noise of each kind (R55). -/
theorem witness_lookup_ranges :
    rlut 0x41 = some 0 ∧ rlut 0x5A = some 25 ∧ rlut 0x61 = some 26 ∧ rlut 0x7A = some 51 ∧ rlut 0x30 = some 52 ∧
      rlut 0x39 = some 61 ∧ rlut 0x22 = some 90 ∧ rlut 0x20 = none ∧ rlut 0x27 = none ∧ rlut 0x2D = none ∧
      rlut 0x5C = none ∧ rlut 0x7F = none ∧ rlut 0x80 = none ∧ rlut 0xFF = none := by decide

/-- PairValueIsABijection: the largest symbols meet its bounds, and 8280 is the largest value (R56). -/
theorem witness_largest_pair :
    (90 : Sym).toNat ≤ 90 ∧ (pairValue 90 90).toNat = 8280 := by decide

/-- GroupWidthClasses and EmittedIndicesAreInRange: each class at both its ends, R95's example. -/
theorem witness_width_classes :
    groupWidth 0 = 14 ∧ groupWidth 88 = 14 ∧ groupWidth 89 = 13 ∧ groupWidth 8191 = 13 ∧ groupWidth 8192 = 14 ∧
      groupWidth 8280 = 14 ∧ (groupValue 8280).toNat = 8280 ∧ (8280 : Acc).toNat ≤ 8280 := by decide

/-- StepRunsTheDecodedCommand, RunOfStepsRunsTheCommands: a state with a command next, and something after it. -/
theorem witness_command_next :
    ({ State.reset with input := [.command 0x061, .reset] } : State).input =
      [(0x061 : Cmd)].map .command ++ [.reset] := by decide

/-- StepTakesReset and the second half of OnlyResetClearsFaultBits: a fault bit set, the reset operation next, and the bit
gone after the step. -/
theorem witness_reset_clears :
    let s : State := { bothClosed with enc := { bothClosed.enc with err := 0b01 }, input := [.reset] }
    s.input = .reset :: [] ∧ nextOf (step s) = some State.reset ∧
      errOf .enc State.reset &&& errOf .enc s ≠ errOf .enc s := by decide

/-- StepIdlesWithoutInput: nothing presented. -/
theorem witness_nothing_presented : State.reset.input = [] := by decide

/-- EncPushResult, EncPushLoopRunsAtMostOnce, MergesAreExact: open, at the ends of both ranges of the count (0, 5, 6, 13), under
R17, and a short and a long group at 6. -/
theorem witness_encPush_states :
    (∀ s ∈ [encAt 0 0, encAt 0x1F 5, encAt 0x18 6, encAt 0x19 6, encAt 0x1FFF 13],
      s.enc.isOpen = true ∧ s.enc.bits.toNat ≤ 13 ∧ s.enc.inv) ∧
    (encAt 0x18 6).enc.acc.toNat ||| ((0x01 : Byte).toNat <<< 6) = 88 ∧
    (encAt 0x19 6).enc.acc.toNat ||| ((0x01 : Byte).toNat <<< 6) = 89 := by decide

/-- EncEndResult, EncFlushCases: open, under R17, one state for each clause at the ends of its range. -/
theorem witness_encEnd_states :
    ∀ s ∈ [encAt 0 0, encAt 1 1, encAt 0x3F 6, encAt 0x5A 7, encAt 0x5B 7, encAt 0x7F 7, encAt 0 8, encAt 0x1FFF 13],
      s.enc.isOpen = true ∧ s.enc.inv := by decide

/-- ClosedEncoderFaults, ClosedDecoderFaults, and the closed halves of the result statements: closed, under R17 and R18. -/
theorem witness_closed_units :
    bothClosed.enc.isOpen = false ∧ bothClosed.dec.isOpen = false ∧ bothClosed.inv ∧
      isOpen .enc bothClosed = false ∧ isOpen .dec bothClosed = false := by decide

/-- DecPushSkipsNoise: noise, on an open unit with a symbol pending and on a closed one. -/
theorem witness_noise :
    rlut 0x0A = none ∧ (decAt 0x5 5 true 48).dec.isOpen = true ∧ bothClosed.dec.isOpen = false := by decide

/-- DecPushHoldsTheFirstSymbol, HeldBitsAreNotObserved: open, nothing pending, the symbol of index 0 and that of index 90;
and an open encoder with 5 bits. -/
theorem witness_hold :
    State.reset.dec.isOpen = true ∧ State.reset.dec.pendValid = false ∧ rlut 0x41 = some 0 ∧ rlut 0x22 = some 90 ∧
      (rlut 0x41).isSome = true ∧ (encAt 0x1F 5).enc.isOpen = true ∧ (encAt 0x1F 5).enc.bits.toNat ≤ 5 := by decide

/-- DecPushCombinesAPair, DecCombineEmitsOneOrTwoBytes, MergesAreExact: a symbol pending, under R18, with sums of count and
width 13, 14, 15, 16 and 21. -/
theorem witness_combine :
    (∀ s ∈ [decAt 0 0 true 89, decAt 0 0 true 0, decAt 0 2 true 89, decAt 0 2 true 0, decAt 0x7F 7 true 88],
      s.dec.isOpen = true ∧ s.dec.pendValid = true ∧ s.dec.bits.toNat ≤ 7 ∧ s.dec.inv) ∧
    rlut 0x41 = some 0 ∧
    ([(0, 89), (0, 0), (2, 89), (2, 0), (7, 88)].map
      (fun p : Nat × Nat => p.1 + (if p.2 % 8192 > 88 then 13 else 14))) = [13, 14, 15, 16, 21] := by decide

/-- DecEndResult, DecFlushCases: open, under R18, with and without a symbol pending. -/
theorem witness_decEnd_states :
    ∀ s ∈ [decAt 0 0 false 0, decAt 0x7F 7 false 0, decAt 0 0 true 0, decAt 0x7F 7 true 90],
      s.dec.isOpen = true ∧ s.dec.inv := by decide

/-- FaultHasNoOtherEffect: each way to fault, on each unit. -/
theorem witness_faulting_commands :
    (Instr.encRsvd 0).op = .rsvd ∧ (Instr.decRsvd 0).op = .rsvd ∧
      (Instr.encPush 0).op = .push ∧ isOpen (Instr.encPush 0).unit bothClosed = false ∧
      (Instr.decEnd 0).op = .finish ∧ isOpen (Instr.decEnd 0).unit bothClosed = false := by decide

/-- NoFaultDependsOnData: a command other than a reserved word, on an open unit, for each unit. -/
theorem witness_open_unit :
    isOpen (Instr.encPush 0xFF).unit State.reset = true ∧ (Instr.encPush 0xFF).op ≠ .rsvd ∧
      isOpen (Instr.decEnd 0).unit State.reset = true ∧ (Instr.decEnd 0).op ≠ .rsvd := by decide

/-- UnitsAreIndependent, CommandLeavesTheOtherUnit, OnlyResetClearsFaultBits: two states with the same encoder and different
decoders, a command that completes in both, and two commands for different units. -/
theorem witness_independence :
    State.reset.enc = (decAt 1 1 false 0).enc ∧ State.reset.dec ≠ (decAt 1 1 false 0).dec ∧
      (nextOf (exec (.encPush 0) State.reset)).isSome = true ∧
      (nextOf (exec (.encPush 0) (decAt 1 1 false 0))).isSome = true ∧
      (Instr.encPush 0).unit ≠ (Instr.decPush 0).unit := by decide

/-- ItemsPerCommand, StepKeepsTheInvariants: states that meet R17 and R18, open and closed, and a step that completes. -/
theorem witness_invariants :
    (encAt 0x1FFF 13).inv ∧ (decAt 0x7F 7 true 90).inv ∧ bothClosed.inv ∧
      (nextOf (step { encAt 0x1FFF 13 with input := [.command 0x0FF] })).isSome = true := by decide

/-- StepKeepsAlphabetClosure: a state with an alphabet character in `ENC.out` that meets R17, and a step that completes. -/
theorem witness_alphabet_closed :
    let s : State := { State.reset with
      enc := { Enc.reset with acc := 0x1FFF, bits := 13, out := [.byte 0x41, .eos] }, input := [.command 0x0FF] }
    s.enc.inv ∧ alphabetClosed s ∧ (nextOf (step s)).isSome = true := by
  refine ⟨by decide, ?_, by decide⟩
  intro x hx
  simp only [List.mem_cons, List.not_mem_nil, or_false] at hx
  obtain rfl | rfl := hx
  · exact (by decide : (0x41 : Byte) ∈ alphaTable)
  · trivial

/-- NoiseIsTolerated: a sequence after which DEC is open with a symbol pending, and a noise character. -/
theorem witness_noise_in_sequence :
    (nextOf (runInstrs [.decPush 0x47] State.reset)).map (fun t => (t.dec.isOpen, t.dec.pend)) = some (true, 6) ∧
      rlut 0x20 = none := by decide

/-- EveryCountIsReachable, EncodeIsAFunctionOfTheBytes, DecodeIsAFunctionOfTheText: the largest counts, and empty input. -/
theorem witness_counts_and_empty_input :
    (13 : Nat) ≤ 13 ∧ (7 : Nat) ≤ 7 ∧ encodeFrom State.reset [] = some [] ∧ decodeFrom State.reset [] = some [] := by
  decide

end Sys2Proof.Tests
end

/-! The merges inside a PUSH (00_scope.md R4, R5; 10_state.md R17, R18): one rule for placing a value of known width above
the buffered bits, and its use in both units. -/

namespace Sys2Proof.Machine

/-- Placing `w` bits above `bits` valid ones is an exact addition and leaves `bits + w` valid bits (R5). -/
theorem mergeBits_exact {acc v : Acc} {bits : Cnt} {w : Nat} (hacc : acc.toNat < 2 ^ bits.toNat)
    (hv : v.toNat < 2 ^ w) (hw : bits.toNat + w ≤ 24) :
    (mergeBits acc bits v).toNat = acc.toNat + v.toNat * 2 ^ bits.toNat ∧
      (mergeBits acc bits v).toNat < 2 ^ (bits.toNat + w) := by
  have hsum : acc.toNat + v.toNat * 2 ^ bits.toNat < 2 ^ (bits.toNat + w) :=
    calc acc.toNat + v.toNat * 2 ^ bits.toNat
        < 2 ^ bits.toNat + v.toNat * 2 ^ bits.toNat := Nat.add_lt_add_right hacc _
      _ = (v.toNat + 1) * 2 ^ bits.toNat := by ring
      _ ≤ 2 ^ w * 2 ^ bits.toNat := Nat.mul_le_mul_right _ hv
      _ = 2 ^ (bits.toNat + w) := by rw [pow_add, mul_comm]
  have hfit : v.toNat * 2 ^ bits.toNat < 2 ^ 24 :=
    calc v.toNat * 2 ^ bits.toNat
        ≤ acc.toNat + v.toNat * 2 ^ bits.toNat := Nat.le_add_left _ _
      _ < 2 ^ (bits.toNat + w) := hsum
      _ ≤ 2 ^ 24 := Nat.pow_le_pow_right (by decide) hw
  have hadd := mergeBits_toNat_add acc v bits hacc hfit
  exact ⟨hadd, hadd ▸ hsum⟩

/-- A group is 13 or 14 bits wide (R57). -/
theorem groupWidth_bounds (v : Acc) : 13 ≤ groupWidth v ∧ groupWidth v ≤ 14 := by
  rw [groupWidth_eq]
  split <;> decide

/-- The pair value of two indices of the alphabet is at most 8280 (R56). -/
theorem pairValue_le {lo hi : Sym} (hlo : lo.toNat ≤ 90) (hhi : hi.toNat ≤ 90) :
    (pairValue lo hi).toNat ≤ 8280 := by
  rw [pairValue_toNat]
  omega

/-- A value up to 8280 fits its group: those of 8192 and more have low bits of at most 88, so they take 14 bits (R57). -/
theorem toNat_lt_two_pow_groupWidth {v : Acc} (hv : v.toNat ≤ 8280) : v.toNat < 2 ^ groupWidth v := by
  by_cases hs : 88 < v.toNat % 8192
  · rw [(group_short v hs).1]
    omega
  · rw [(group_long v (by omega)).1]
    omega

/-- Step 1 of `ENC.PUSH` under R17: an exact addition of 8 bits (R72). -/
theorem Enc.accumulate_exact {e : Enc} (d : Byte) (hacc : e.acc.toNat < 2 ^ e.bits.toNat)
    (hbits : e.bits.toNat ≤ 13) :
    (e.accumulate d).acc.toNat = e.acc.toNat + d.toNat * 2 ^ e.bits.toNat ∧
      (e.accumulate d).bits.toNat = e.bits.toNat + 8 ∧
      (e.accumulate d).acc.toNat < 2 ^ (e.accumulate d).bits.toNat := by
  have hcount := (Enc.accumulate_toNat d e hbits).2
  have hd : (encOperand d).toNat < 2 ^ 8 := (encOperand_toNat d).symm ▸ d.isLt
  obtain ⟨hadd, hlt⟩ := mergeBits_exact hacc hd (by omega)
  rw [encOperand_toNat] at hadd
  exact ⟨hadd, hcount, hcount.symm ▸ hlt⟩

/-- The merge of `DEC.PUSH` under R18, for the pair value of two indices: an exact addition of one group (R94, R95). -/
theorem Dec.mergePair_exact {d : Dec} {v : Acc} (hacc : d.acc.toNat < 2 ^ d.bits.toNat)
    (hbits : d.bits.toNat ≤ 7) (hv : v.toNat ≤ 8280) :
    (d.mergePair v).acc.toNat = d.acc.toNat + v.toNat * 2 ^ d.bits.toNat ∧
      (d.mergePair v).bits.toNat = d.bits.toNat + groupWidth v ∧
      (d.mergePair v).acc.toNat < 2 ^ (d.mergePair v).bits.toNat := by
  have hcount := (Dec.mergePair_toNat d v hbits (by omega)).2
  have hw := (groupWidth_bounds v).2
  obtain ⟨hadd, hlt⟩ := mergeBits_exact hacc (toNat_lt_two_pow_groupWidth hv) (by omega)
  exact ⟨hadd, hcount, hcount.symm ▸ hlt⟩

/-- Settles O46: each unit's merge is exact, and its count of at most 21 bounds the accumulator. -/
theorem mergesAreExact : Obligations.MergesAreExact := by
  refine ⟨fun d e ⟨hacc, hbits, _⟩ => ?_, fun idx d ⟨hacc, hbits, hpend, _⟩ hvalid hidx => ?_⟩
  · obtain ⟨hadd, hcount, hlt⟩ := Enc.accumulate_exact d hacc hbits
    have h21 : (e.accumulate d).bits.toNat ≤ 21 := by omega
    exact ⟨hadd, hcount, hlt, h21, hlt.trans_le (Nat.pow_le_pow_right (by decide) h21)⟩
  · dsimp only
    obtain ⟨hadd, hcount, hlt⟩ := Dec.mergePair_exact hacc hbits (pairValue_le (hpend hvalid) hidx)
    obtain ⟨hw13, hw14⟩ := groupWidth_bounds (pairValue d.pend idx)
    have h21 : (d.mergePair (pairValue d.pend idx)).bits.toNat ≤ 21 := by omega
    rw [pairValue_toNat] at hadd
    exact ⟨hadd, hlt, by omega, h21, hlt.trans_le (Nat.pow_le_pow_right (by decide) h21)⟩

end Sys2Proof.Machine

/-! The invariants of both units (10_state.md R17, R18): at reset, and kept by every step. -/

namespace Sys2Proof.Machine

/-- Taking the oldest `n` of `m` valid bits leaves `m - n` valid bits (R4, R73, R96). -/
theorem dropBits_lt {acc : Acc} {m n : Nat} (hacc : acc.toNat < 2 ^ m) (hn : n ≤ m) :
    (dropBits acc n).toNat < 2 ^ (m - n) := by
  rw [dropBits_toNat]
  apply Nat.div_lt_of_lt_mul
  rwa [← pow_add, Nat.add_sub_cancel' hn]

/-- A cleared encoder, open or closed, meets R17. -/
theorem Enc.clear_inv (o : Bool) (e : Enc) : (e.clear o).inv := by
  simp [Enc.inv]

/-- A cleared decoder, open or closed, meets R18. -/
theorem Dec.clear_inv (o : Bool) (d : Dec) : (d.clear o).inv := by
  simp [Dec.inv]

/-- A group takes its 13 or 14 bits out of the valid ones, and the rest fits the new count (R17 a, R73). -/
theorem Enc.group_acc_lt {e : Enc} (hready : groupReady e = true) (hacc : e.acc.toNat < 2 ^ e.bits.toNat) :
    e.group.acc.toNat < 2 ^ e.group.bits.toNat := by
  have h13 := (groupReady_iff e).mp hready
  have hw := (groupWidth_bounds e.acc).2
  rw [Enc.group_bits_toNat e h13]
  exact dropBits_lt hacc (by omega)

/-- `ENC.PUSH` on an open unit keeps R17: the merge and every group keep (a), and the finished loop gives (b). -/
theorem Enc.push_inv {e : Enc} (d : Byte) (hopen : e.isOpen = true) (hinv : e.inv) : (e.push d).inv := by
  obtain ⟨hacc, hbits, -⟩ := hinv
  obtain ⟨-, -, hmerged⟩ := Enc.accumulate_exact d hacc hbits
  have hlt : (e.push d).acc.toNat < 2 ^ (e.push d).bits.toNat :=
    repeatWhile_keeps (fun a : Enc => a.acc.toNat < 2 ^ a.bits.toNat) groupReady Enc.group
      (fun _ => Enc.group_acc_lt) encRounds (e.accumulate d) hmerged
  have hdone : ¬ 13 < (e.push d).bits.toNat := by
    rw [← groupReady_iff, Bool.not_eq_true]
    exact encPushLoop_done (e.accumulate d)
  exact ⟨hlt, Nat.le_of_not_lt hdone, by simp [hopen]⟩

/-- An emitted byte takes 8 of the valid bits, and the rest fits the new count (R18 a, R96). -/
theorem Dec.emitByte_acc_lt {d : Dec} (hready : byteReady d = true) (hacc : d.acc.toNat < 2 ^ d.bits.toNat) :
    d.emitByte.acc.toNat < 2 ^ d.emitByte.bits.toNat := by
  have h8 : 8 ≤ d.bits.toNat := (byteReady_iff d).mp hready
  rw [Dec.emitByte_bits, countDown_toNat _ _ h8]
  exact dropBits_lt hacc h8

/-- Combining a pair of alphabet indices on an open decoder keeps R18: the merge and every byte keep (a), the finished
loop gives (b), and no symbol is left pending. -/
theorem Dec.combine_inv {d : Dec} {idx : Sym} (hopen : d.isOpen = true) (hvalid : d.pendValid = true)
    (hidx : idx.toNat ≤ 90) (hinv : d.inv) : (d.combine idx).inv := by
  obtain ⟨hacc, hbits, hpend, -, -⟩ := hinv
  obtain ⟨-, -, hmerged⟩ := Dec.mergePair_exact hacc hbits (pairValue_le (hpend hvalid) hidx)
  have hlt : (d.combine idx).acc.toNat < 2 ^ (d.combine idx).bits.toNat :=
    repeatWhile_keeps (fun a : Dec => a.acc.toNat < 2 ^ a.bits.toNat) byteReady Dec.emitByte
      (fun _ => Dec.emitByte_acc_lt) decRounds _ hmerged
  have hdone : ¬ 7 < (d.combine idx).bits.toNat := by
    rw [← byteReady_iff, Bool.not_eq_true]
    exact decCombineLoop_done (d.mergePair (pairValue d.pend idx))
  exact ⟨hlt, Nat.le_of_not_lt hdone, by simp, by simp, by simp [hopen]⟩

/-- `DEC.PUSH` on an open unit keeps R18, whether it skips, holds or combines. -/
theorem Dec.push_inv {d : Dec} (c : Byte) (hopen : d.isOpen = true) (hinv : d.inv) : (d.push c).inv := by
  rcases Dec.push_cases c d with ⟨-, h⟩ | ⟨i, hi, -, h⟩ | ⟨i, hi, hvalid, h⟩ <;> rw [h]
  · exact hinv
  · obtain ⟨hacc, hbits, -⟩ := hinv
    exact ⟨hacc, hbits, fun _ => rlut_le c i hi, by simp, by simp [hopen]⟩
  · exact Dec.combine_inv hopen hvalid (rlut_le c i hi) hinv

/-- A fault touches no field that R17 and R18 speak of (R131). -/
theorem raise_inv {s : State} (u : UnitId) (k : ErrKind) (hinv : s.inv) : (raise u k s).inv := by
  cases u <;> exact hinv

/-- Every command keeps R17 and R18. -/
theorem afterExec_inv (i : Instr) {s : State} (hinv : s.inv) : (afterExec i s).inv := by
  have ⟨henc, hdec⟩ := hinv
  rcases afterExec_cases i s with ⟨k, h⟩ |
      ⟨-, ⟨x, -, ho, h⟩ | ⟨_, -, -, h⟩ | ⟨_, -, h⟩⟩ | ⟨-, ⟨x, -, ho, h⟩ | ⟨_, -, -, h⟩ | ⟨_, -, h⟩⟩ <;> rw [h]
  · exact raise_inv i.unit k hinv
  · exact ⟨Enc.push_inv x ho henc, hdec⟩
  · exact ⟨Enc.clear_inv false _, hdec⟩
  · exact ⟨Enc.clear_inv true _, hdec⟩
  · exact ⟨henc, Dec.push_inv x ho hdec⟩
  · exact ⟨henc, Dec.clear_inv false _⟩
  · exact ⟨henc, Dec.clear_inv true _⟩

/-- Reset leaves both units as an `INIT` of a unit without faults and output does, so it meets R17 and R18 (R24). -/
theorem restart_inv (s : State) : (restart s).inv :=
  ⟨Enc.clear_inv true Enc.reset, Dec.clear_inv true Dec.reset⟩

/-- Settles O44: a step idles, runs one command or resets, and each keeps R17 and R18. -/
theorem stepKeepsTheInvariants : Obligations.StepKeepsTheInvariants := by
  intro s t hinv hstep
  rcases step_cases s with ⟨-, h⟩ | ⟨w, rest, -, h⟩ | ⟨rest, -, h⟩ <;> rw [h] at hstep
  · cases hstep
    exact hinv
  · rw [exec_next hstep]
    exact afterExec_inv (decode w) (s := { s with input := rest }) hinv
  · cases hstep
    exact restart_inv _

/-- Settles O45: the reset units are cleared ones, their streams empty and their fault records 0. -/
theorem resetMeetsTheInvariants : Obligations.ResetMeetsTheInvariants :=
  ⟨restart_inv State.reset, fun _ hx => absurd hx List.not_mem_nil, rfl, rfl⟩

/-- Settles O17: each element of R24's table, read off the reset state. -/
theorem resetValues : Obligations.ResetValues :=
  ⟨rfl, rfl, rfl, rfl, rfl, rfl, rfl, rfl, rfl, rfl, rfl, rfl⟩

end Sys2Proof.Machine

/-! The fault records (10_state.md R16, 60_exceptions.md R140): what a command adds to them, and what only reset clears. -/

namespace Sys2Proof.Machine

/-- A fault sets its bit in the record of its unit and leaves the other record (R131). -/
theorem errOf_raise (u v : UnitId) (k : ErrKind) (s : State) :
    errOf u (raise v k s) = if v = u then errOf u s ||| errBit k else errOf u s := by
  cases u <;> cases v <;> rfl

/-- A command either leaves a fault record as it was or sets one more fault in it (R131, R134). -/
theorem errOf_afterExec_cases (i : Instr) (s : State) (u : UnitId) :
    errOf u (afterExec i s) = errOf u s ∨ ∃ k, errOf u (afterExec i s) = errOf u s ||| errBit k := by
  rcases afterExec_cases i s with ⟨k, h⟩ |
      ⟨-, ⟨x, -, -, h⟩ | ⟨_, -, -, h⟩ | ⟨_, -, h⟩⟩ | ⟨-, ⟨x, -, -, h⟩ | ⟨_, -, -, h⟩ | ⟨_, -, h⟩⟩ <;> rw [h]
  · rw [errOf_raise]
    split_ifs
    · exact .inr ⟨k, rfl⟩
    · exact .inl rfl
  all_goals left; cases u <;> simp

/-- Every command keeps every set fault bit (R16, R140). -/
theorem errOf_afterExec_and (i : Instr) (s : State) (u : UnitId) :
    errOf u (afterExec i s) &&& errOf u s = errOf u s := by
  rcases errOf_afterExec_cases i s u with h | ⟨k, h⟩ <;> rw [h]
  · exact BitVec.and_self
  · ext j hj
    simp +contextual

/-- Settles O37: no command clears a bit, an idle step changes nothing, and reset clears both records. -/
theorem onlyResetClearsFaultBits : Obligations.OnlyResetClearsFaultBits := by
  refine ⟨fun i s t u h => exec_next h ▸ errOf_afterExec_and i s u, fun s t u hstep hlost => ?_⟩
  rcases step_cases s with ⟨-, h⟩ | ⟨w, rest, -, h⟩ | ⟨rest, hin, h⟩ <;> rw [h] at hstep
  · cases hstep
    exact absurd BitVec.and_self hlost
  · have hsame : errOf u { s with input := rest } = errOf u s := by cases u <;> rfl
    rw [exec_next hstep, ← hsame] at hlost
    exact absurd (errOf_afterExec_and (decode w) _ u) hlost
  · cases hstep
    exact ⟨rest, hin, by cases u <;> rfl⟩

end Sys2Proof.Machine

/-! What the host does not see (10_state.md R19, R22): bits and a symbol that are held back. -/

namespace Sys2Proof.Machine

/-- A change to the encoder that leaves its stream, open flag and fault record is not observed (R19). -/
theorem observe_onEnc {f : Enc → Enc} {s : State} (hout : (f s.enc).out = s.enc.out)
    (hopen : (f s.enc).isOpen = s.enc.isOpen) (herr : (f s.enc).err = s.enc.err) :
    observe (onEnc f s) = observe s := by
  simp [observe, hout, hopen, herr]

/-- A change to the decoder that leaves its stream, open flag and fault record is not observed (R19). -/
theorem observe_onDec {g : Dec → Dec} {s : State} (hout : (g s.dec).out = s.dec.out)
    (hopen : (g s.dec).isOpen = s.dec.isOpen) (herr : (g s.dec).err = s.dec.err) :
    observe (onDec g s) = observe s := by
  simp [observe, hout, hopen, herr]

/-- A first symbol is held (R93). -/
theorem Dec.push_hold {d : Dec} {c : Byte} {i : Sym} (hi : rlut c = some i) (hp : d.pendValid = false) :
    d.push c = d.hold i := by
  simp [Dec.push, decOperand, hi, hp]

/-- Settles O43: with at most 5 bits no group goes out, so the push only accumulates; a first symbol is only held. -/
theorem heldBitsAreNotObserved : Obligations.HeldBitsAreNotObserved := by
  refine fun x s => ⟨fun hopen hbits => ?_, fun hopen hp hsym => ?_⟩
  · have hpush := Enc.push_no_group x s.enc hbits
    refine ⟨_, exec_eq _ s, ?_, ?_⟩ <;> rw [afterExec_encPush_open s x hopen]
    · exact observe_onEnc (by simp [hpush]) (by simp) (by simp)
    · rw [onEnc_enc, hpush]
      exact (Enc.accumulate_toNat x s.enc (by omega)).2
  · obtain ⟨i, hi⟩ := Option.isSome_iff_exists.mp hsym
    have hpush := Dec.push_hold hi hp
    refine ⟨_, exec_eq _ s, ?_, ?_⟩ <;> rw [afterExec_decPush_open s x hopen]
    · exact observe_onDec (by simp [hpush]) (by simp) (by simp)
    · rw [onDec_dec, hpush, Dec.hold_pendValid]

end Sys2Proof.Machine

/-! Every count of R17 and R18 occurs: runs of one repeated operand, whose groups all have 13 bits. -/

namespace Sys2Proof.Machine

/-- Bytes that take the encoder from count 0 to count `n`. Bytes 0xFF make every group short, so `k` of them leave `8 * k`
less a multiple of 13, and 5 is the inverse of 8 modulo 13. -/
def bytesToCount (n : Nat) : List Byte :=
  List.replicate (if n = 13 then 13 else 5 * n % 13) 0xFF

/-- Characters that take the decoder from count 0 to count `n`. Each pair `BB` has the value 92, a short group, so `k` pairs
leave `13 * k` less a multiple of 8, and 5 is its own inverse modulo 8. -/
def charsToCount (n : Nat) : List Byte :=
  List.replicate (2 * (5 * n % 8)) 0x42

theorem bits_bytesToCount : ∀ n ≤ 13, let e := (bytesToCount n).foldl (fun a b => a.push b) Enc.reset
    e.isOpen = true ∧ e.bits.toNat = n := by
  decide

theorem bits_charsToCount : ∀ n ≤ 7, let d := (charsToCount n).foldl (fun a c => a.push c) Dec.reset
    d.isOpen = true ∧ d.bits.toNat = n := by
  decide

/-- Settles O47: from reset, a chunk of `bytesToCount n` to the encoder or of `charsToCount n` to the decoder. -/
theorem everyCountIsReachable : Obligations.EveryCountIsReachable :=
  ⟨fun n hn => ⟨_, _, runInstrs_chunk_enc (bytesToCount n) State.reset rfl, bits_bytesToCount n hn⟩,
   fun n hn => ⟨_, _, runInstrs_chunk_dec (charsToCount n) State.reset rfl, bits_charsToCount n hn⟩⟩

end Sys2Proof.Machine

/-! The port (20_memory.md R33, R42): a step takes one command word, and a run of steps takes them in the order presented. -/

namespace Sys2Proof.Machine

/-- Settles O12: of all that a step can do, only running the next word fits a port with a word in front. -/
theorem stepRunsTheDecodedCommand : Obligations.StepRunsTheDecodedCommand := by
  intro s w rest hin
  rcases step_cases s with ⟨h, -⟩ | ⟨w', rest', h, hstep⟩ | ⟨rest', h, -⟩ <;> rw [hin] at h
  · cases h
  · cases h
    exact hstep
  · cases h

/-- A run goes on from the state that its first step answers. -/
theorem core_run_succ {s t : State} (k : Nat) (h : step s = .next t) :
    Sys2Proof.core.run (k + 1) s = Sys2Proof.core.run k t := by
  have hcore : Sys2Proof.core.step s = .next t := h
  simp only [Host.Core.run, hcore]

/-- The host's events wait through a command. -/
@[simp] theorem afterExec_input (i : Instr) (s : State) : (afterExec i s).input = s.input :=
  congrArg (·.input) (afterExec_withInput i s s.input)

/-- A run of commands goes on from what its first command answers. -/
theorem runInstrs_cons (i : Instr) (is : List Instr) (s : State) :
    runInstrs (i :: is) s = runInstrs is (afterExec i s) := by
  simp only [runInstrs, exec_eq]

/-- Settles O15, by induction on the words: a step runs the first command, which does not see the words after it. -/
theorem runOfStepsRunsTheCommands : Obligations.RunOfStepsRunsTheCommands := by
  intro ws rest
  induction ws with
  | nil =>
    intro s hin
    exact congrArg Host.Outcome.next (State.ext rfl rfl hin)
  | cons w ws ih =>
    intro s hin
    have hstep := (stepRunsTheDecodedCommand s w _ hin).trans (exec_eq _ _)
    rw [List.length_cons, core_run_succ ws.length hstep, ih _ (afterExec_input _ _), ← afterExec_withInput]
    exact (runInstrs_cons (decode w) (ws.map decode) _).symm

end Sys2Proof.Machine

/-! Frames and independence (20_memory.md R43): a command is a change to the unit it addresses, and to nothing else. -/

namespace Sys2Proof.Machine

/-- The open check of the encoder reads and writes the encoder alone. -/
theorem whenOpen_enc_eq_onEnc (g : Enc → Enc) : ∃ f, ∀ s, whenOpen .enc (onEnc g) s = onEnc f s := by
  refine ⟨fun e => if e.isOpen then g e else { e with err := e.err ||| errBit .closed }, fun s => ?_⟩
  cases ho : s.enc.isOpen
  · simp [whenOpen_closed .enc _ s ho, raise, onEnc, ho]
  · simp [whenOpen_open .enc _ s ho, onEnc, ho]

/-- The open check of the decoder reads and writes the decoder alone. -/
theorem whenOpen_dec_eq_onDec (g : Dec → Dec) : ∃ f, ∀ s, whenOpen .dec (onDec g) s = onDec f s := by
  refine ⟨fun d => if d.isOpen then g d else { d with err := d.err ||| errBit .closed }, fun s => ?_⟩
  cases ho : s.dec.isOpen
  · simp [whenOpen_closed .dec _ s ho, raise, onDec, ho]
  · simp [whenOpen_open .dec _ s ho, onDec, ho]

/-- A command that addresses the encoder is one function of the encoder, whatever the rest of the state. -/
theorem afterExec_eq_onEnc {i : Instr} (hi : i.unit = .enc) : ∃ f, ∀ s, afterExec i s = onEnc f s := by
  cases i with
  | encPush d => exact whenOpen_enc_eq_onEnc (Enc.push d)
  | encEnd _ => exact whenOpen_enc_eq_onEnc Enc.finish
  | encInit _ => exact ⟨Enc.clear true, fun _ => rfl⟩
  | encRsvd _ => exact ⟨fun e => { e with err := e.err ||| errBit .illegal }, fun _ => rfl⟩
  | decPush _ | decEnd _ | decInit _ | decRsvd _ => cases hi

/-- A command that addresses the decoder is one function of the decoder, whatever the rest of the state. -/
theorem afterExec_eq_onDec {i : Instr} (hi : i.unit = .dec) : ∃ f, ∀ s, afterExec i s = onDec f s := by
  cases i with
  | decPush c => exact whenOpen_dec_eq_onDec (Dec.push c)
  | decEnd _ => exact whenOpen_dec_eq_onDec Dec.finish
  | decInit _ => exact ⟨Dec.clear true, fun _ => rfl⟩
  | decRsvd _ => exact ⟨fun d => { d with err := d.err ||| errBit .illegal }, fun _ => rfl⟩
  | encPush _ | encEnd _ | encInit _ | encRsvd _ => cases hi

/-- The decoder's half of the frame of a command to the encoder. -/
theorem afterExec_dec_of_unit_enc {i : Instr} (hi : i.unit = .enc) (s : State) : (afterExec i s).dec = s.dec := by
  obtain ⟨f, hf⟩ := afterExec_eq_onEnc hi
  rw [hf, onEnc_dec]

/-- The encoder's half of the frame of a command to the decoder. -/
theorem afterExec_enc_of_unit_dec {i : Instr} (hi : i.unit = .dec) (s : State) : (afterExec i s).enc = s.enc := by
  obtain ⟨f, hf⟩ := afterExec_eq_onDec hi
  rw [hf, onDec_enc]

/-- Settles O40, from the two halves of the frame. -/
theorem commandLeavesTheOtherUnit : Obligations.CommandLeavesTheOtherUnit := fun i s =>
  ⟨afterExec i s, exec_eq i s, afterExec_input i s, (afterExec_dec_of_unit_enc · s), (afterExec_enc_of_unit_dec · s)⟩

/-- A command to the encoder and one to the decoder give the same state in either order. -/
theorem afterExec_comm_of_units {i j : Instr} (hi : i.unit = .enc) (hj : j.unit = .dec) (s : State) :
    afterExec j (afterExec i s) = afterExec i (afterExec j s) := by
  obtain ⟨f, hf⟩ := afterExec_eq_onEnc hi
  obtain ⟨g, hg⟩ := afterExec_eq_onDec hj
  rw [hf s, hg, hg s, hf]
  rfl

/-- Settles O41: each command is a function of its own unit, and functions of different units commute. -/
theorem unitsAreIndependent : Obligations.UnitsAreIndependent := by
  refine ⟨fun i s s' t t' ht ht' => ?_, fun i j s hne => ?_⟩
  · rw [exec_next ht, exec_next ht']
    refine ⟨fun hi => ⟨afterExec_dec_of_unit_enc hi s, fun hs => ?_⟩,
      fun hi => ⟨afterExec_enc_of_unit_dec hi s, fun hs => ?_⟩⟩
    · obtain ⟨f, hf⟩ := afterExec_eq_onEnc hi
      rw [hf, hf, onEnc_enc, onEnc_enc, hs]
    · obtain ⟨g, hg⟩ := afterExec_eq_onDec hi
      rw [hg, hg, onDec_dec, onDec_dec, hs]
  · cases hi : i.unit <;> cases hj : j.unit
    · exact absurd (hi.trans hj.symm) hne
    · simp only [runInstrs_cons, afterExec_comm_of_units hi hj]
    · simp only [runInstrs_cons, afterExec_comm_of_units hj hi]
    · exact absurd (hi.trans hj.symm) hne

end Sys2Proof.Machine

/-! What a command appends to the streams (20_memory.md R34). -/

namespace Sys2Proof.Machine

/-- `ENC.PUSH` with at most 13 bits buffered appends no character or two (R74). -/
theorem Enc.push_out {e : Enc} (d : Byte) (hbits : e.bits.toNat ≤ 13) :
    ∃ text : List Byte, (e.push d).out = e.out ++ text.map .byte ∧ (text.length = 0 ∨ text.length = 2) := by
  by_cases h5 : e.bits.toNat ≤ 5
  · exact ⟨[], by simp [Enc.push_no_group d e h5], .inl rfl⟩
  · rw [Enc.push_one_group d e (by omega) hbits, Enc.group_out, Enc.accumulate_out]
    exact ⟨[_, _], rfl, .inr rfl⟩

/-- `ENC.END` appends at most two characters and then `eos` (R76). -/
theorem Enc.finish_appends (e : Enc) :
    ∃ text : List Byte, e.finish.out = e.out ++ text.map .byte ++ [.eos] ∧ text.length ≤ 2 := by
  rw [Enc.finish_out, Enc.flush_out]
  split_ifs
  · exact ⟨[], rfl, by simp⟩
  · exact ⟨[_, _], rfl, by simp⟩
  · exact ⟨[_], rfl, by simp⟩

/-- Combining a pair with at most 7 bits buffered appends at most two bytes (R97). -/
theorem Dec.combine_out {d : Dec} (idx : Sym) (hbits : d.bits.toNat ≤ 7) :
    ∃ bytes : List Byte, (d.combine idx).out = d.out ++ bytes.map .byte ∧ bytes.length ≤ 2 := by
  have hv : (pairValue d.pend idx).toNat < 2 ^ 14 := by
    rw [pairValue_toNat]
    omega
  have hcount := (Dec.mergePair_toNat d (pairValue d.pend idx) hbits hv).2
  have hw := groupWidth_bounds (pairValue d.pend idx)
  by_cases h15 : (d.mergePair (pairValue d.pend idx)).bits.toNat ≤ 15
  · rw [Dec.combine_one_byte d idx (by omega) h15]
    exact ⟨[_], rfl, by simp⟩
  · rw [Dec.combine_two_bytes d idx (by omega) (by omega)]
    exact ⟨[_, _], List.append_assoc _ [_] [_], le_rfl⟩

/-- `DEC.PUSH` with at most 7 bits buffered appends at most two bytes: none where it skips or holds (R92, R93, R97). -/
theorem Dec.push_out {d : Dec} (c : Byte) (hbits : d.bits.toNat ≤ 7) :
    ∃ bytes : List Byte, (d.push c).out = d.out ++ bytes.map .byte ∧ bytes.length ≤ 2 := by
  rcases Dec.push_cases c d with ⟨-, h⟩ | ⟨i, -, -, h⟩ | ⟨i, -, -, h⟩ <;> rw [h]
  · exact ⟨[], by simp⟩
  · exact ⟨[], by simp⟩
  · exact Dec.combine_out i hbits

/-- `DEC.END` appends at most one byte and then `eos` (R98). -/
theorem Dec.finish_appends (d : Dec) :
    ∃ bytes : List Byte, d.finish.out = d.out ++ bytes.map .byte ++ [.eos] ∧ bytes.length ≤ 1 := by
  rw [Dec.finish_out, Dec.flush_out]
  split_ifs
  · exact ⟨[_], rfl, by simp⟩
  · exact ⟨[], rfl, by simp⟩

/-- A fault appends nothing (R131). -/
@[simp] theorem outOf_raise (u v : UnitId) (k : ErrKind) (s : State) : outOf u (raise v k s) = outOf u s := by
  cases u <;> cases v <;> rfl

/-- A command to a closed unit appends nothing: it faults, or it is an `INIT` (R34, R70, R90). -/
theorem outOf_afterExec_of_closed {i : Instr} {s : State} (hclosed : isOpen i.unit s = false) (u : UnitId) :
    outOf u (afterExec i s) = outOf u s := by
  cases i with
  | encPush x => rw [afterExec_encPush_closed s x hclosed, outOf_raise]
  | encEnd x => rw [afterExec_encEnd_closed s x hclosed, outOf_raise]
  | decPush x => rw [afterExec_decPush_closed s x hclosed, outOf_raise]
  | decEnd x => rw [afterExec_decEnd_closed s x hclosed, outOf_raise]
  | encRsvd x => rw [afterExec_encRsvd, outOf_raise]
  | decRsvd x => rw [afterExec_decRsvd, outOf_raise]
  | encInit _ | decInit _ => cases u <;> rfl

/-- A command appends nothing to the stream of the unit it does not address (R43). -/
theorem outOf_afterExec_of_ne {i : Instr} {u : UnitId} (hne : u ≠ i.unit) (s : State) :
    outOf u (afterExec i s) = outOf u s := by
  cases u <;> cases hi : i.unit
  · exact absurd hi.symm hne
  · exact congrArg Enc.out (afterExec_enc_of_unit_dec hi s)
  · exact congrArg Dec.out (afterExec_dec_of_unit_enc hi s)
  · exact absurd hi.symm hne

/-- The items that R34 allows a command to an open unit: data items, and what stands after them. -/
def itemsAllowed (data : List Byte) (tail : List Item) : Instr → Prop
  | .encPush _ => (data.length = 0 ∨ data.length = 2) ∧ tail = []
  | .encEnd _ => data.length ≤ 2 ∧ tail = [.eos]
  | .decPush _ => data.length ≤ 2 ∧ tail = []
  | .decEnd _ => data.length ≤ 1 ∧ tail = [.eos]
  | .encInit _ | .decInit _ | .encRsvd _ | .decRsvd _ => data = [] ∧ tail = []

/-- What R34 allows is at most 3 items. -/
theorem itemsAllowed_length {data : List Byte} {tail : List Item} {i : Instr} (h : itemsAllowed data tail i) :
    data.length + tail.length ≤ 3 := by
  cases i with
  | encPush _ | encEnd _ | decPush _ | decEnd _ =>
    obtain ⟨hdata, rfl⟩ := h
    simp only [List.length_cons, List.length_nil]
    omega
  | encInit _ | decInit _ | encRsvd _ | decRsvd _ =>
    obtain ⟨rfl, rfl⟩ := h
    exact Nat.zero_le 3

/-- A command to an open unit appends what R34 allows it. -/
theorem outOf_afterExec_of_open {i : Instr} {s : State} (hinv : s.inv) (hopen : isOpen i.unit s = true) :
    ∃ (data : List Byte) (tail : List Item),
      outOf i.unit (afterExec i s) = outOf i.unit s ++ data.map .byte ++ tail ∧ itemsAllowed data tail i := by
  obtain ⟨⟨-, hencBits, -⟩, ⟨-, hdecBits, -⟩⟩ := hinv
  cases i with
  | encPush d =>
    obtain ⟨text, hout, hlen⟩ := Enc.push_out d hencBits
    rw [afterExec_encPush_open s d hopen]
    exact ⟨text, [], hout.trans (List.append_nil _).symm, hlen, rfl⟩
  | encEnd x =>
    obtain ⟨text, hout, hlen⟩ := Enc.finish_appends s.enc
    rw [afterExec_encEnd_open s x hopen]
    exact ⟨text, [.eos], hout, hlen, rfl⟩
  | decPush c =>
    obtain ⟨bytes, hout, hlen⟩ := Dec.push_out c hdecBits
    rw [afterExec_decPush_open s c hopen]
    exact ⟨bytes, [], hout.trans (List.append_nil _).symm, hlen, rfl⟩
  | decEnd x =>
    obtain ⟨bytes, hout, hlen⟩ := Dec.finish_appends s.dec
    rw [afterExec_decEnd_open s x hopen]
    exact ⟨bytes, [.eos], hout, hlen, rfl⟩
  | encInit x => exact ⟨[], [], by simp [Instr.unit, afterExec_encInit], rfl, rfl⟩
  | encRsvd x => exact ⟨[], [], by simp [afterExec_encRsvd], rfl, rfl⟩
  | decInit x => exact ⟨[], [], by simp [Instr.unit, afterExec_decInit], rfl, rfl⟩
  | decRsvd x => exact ⟨[], [], by simp [afterExec_decRsvd], rfl, rfl⟩

/-- Settles O42: an open unit by its row, a closed one because a fault and an `INIT` append nothing. -/
theorem itemsPerCommand : Obligations.ItemsPerCommand := by
  intro i s hinv
  have hother : ∀ u : UnitId, u ≠ i.unit → outOf u (afterExec i s) = outOf u s :=
    fun u hne => outOf_afterExec_of_ne hne s
  cases hopen : isOpen i.unit s with
  | true =>
    obtain ⟨data, tail, hout, hallowed⟩ := outOf_afterExec_of_open hinv hopen
    refine ⟨afterExec i s, data, tail, exec_eq i s, hout, itemsAllowed_length hallowed, hother, fun _ => ?_, nofun⟩
    cases i <;> exact hallowed
  | false =>
    have hout := outOf_afterExec_of_closed hopen i.unit
    exact ⟨afterExec i s, [], [], exec_eq i s, by simpa using hout, by decide, hother, nofun, fun _ => ⟨rfl, rfl⟩⟩

end Sys2Proof.Machine

/-! Command words (30_encoding.md R50 to R53): the three fields and the word determine each other, and everything about the
opcode map follows from that. -/

namespace Sys2Proof.Machine

section
variable (u : UnitId) (o : Op) (d : Byte) (w : Cmd)

@[simp] theorem unit_ofFields : (Instr.ofFields u o d).unit = u := by cases u <;> cases o <;> rfl
@[simp] theorem op_ofFields : (Instr.ofFields u o d).op = o := by cases u <;> cases o <;> rfl
@[simp] theorem data_ofFields : (Instr.ofFields u o d).data = d := by cases u <;> cases o <;> rfl

/-- A command is its three fields (R50). -/
@[simp] theorem ofFields_fields (i : Instr) : Instr.ofFields i.unit i.op i.data = i := by
  cases i <;> rfl

theorem encode_ofFields : encode (Instr.ofFields u o d) = unitBits u ++ opBits o ++ d := by
  simp only [encode, unit_ofFields, op_ofFields, data_ofFields]

/-! Reading the fields of an encoded command. -/

/-- The bits of a word, field by field (R50). -/
theorem getLsbD_encode (i : Instr) (k : Nat) : (encode i).getLsbD k =
    if k < 8 then i.data.getLsbD k
    else if k - 8 < 2 then (opBits i.op).getLsbD (k - 8) else (unitBits i.unit).getLsbD (k - 8 - 2) :=
  (BitVec.getLsbD_append (x := unitBits i.unit ++ opBits i.op) (y := i.data)).trans (by rw [BitVec.getLsbD_append])

theorem unitOf_encode (i : Instr) : unitOf (encode i) = i.unit := by
  rw [unitOf, getLsbD_encode]
  cases i.unit <;> rfl

theorem opOf_encode (i : Instr) : opOf (encode i) = i.op := by
  rw [opOf, getLsbD_encode, getLsbD_encode]
  cases i.op <;> rfl

theorem dataOf_encode (i : Instr) : dataOf (encode i) = i.data :=
  BitVec.extractLsb'_append_eq_right

/-! The bits that a field of a word is read from. -/

theorem unitBits_unitOf : unitBits (unitOf w) = w.extractLsb' 10 1 := by
  ext j hj
  obtain rfl : j = 0 := by omega
  cases h : w[10] <;> simp [unitOf, unitBits, h]

theorem opBits_opOf : opBits (opOf w) = w.extractLsb' 8 2 := by
  ext j hj
  interval_cases j <;> cases h9 : w[9] <;> cases h8 : w[8] <;> simp [opOf, opBits, h9, h8]

/-- The decoder reads back the three fields of a word (R50). -/
theorem decode_encode (i : Instr) : decode (encode i) = i := by
  rw [decode, unitOf_encode, opOf_encode, dataOf_encode, ofFields_fields]

/-- The three fields of a word, put together again, are the word: no bit is dropped (R50). -/
theorem encode_decode : encode (decode w) = w := by
  have hhigh : w.extractLsb' 10 1 ++ w.extractLsb' 8 2 = w.extractLsb' 8 3 :=
    BitVec.extractLsb'_append_extractLsb'_eq_extractLsb' rfl
  have hword : w.extractLsb' 8 3 ++ w.extractLsb' 0 8 = w.extractLsb' 0 11 :=
    BitVec.extractLsb'_append_extractLsb'_eq_extractLsb' rfl
  rw [decode, encode_ofFields, unitBits_unitOf, opBits_opOf, dataOf, hhigh, hword, BitVec.extractLsb'_eq_self]

/-- The value of a word, by its fields (R50). -/
theorem encode_ofFields_toNat : (encode (Instr.ofFields u o d)).toNat =
    (unitBits u).toNat * 1024 + (opBits o).toNat * 256 + d.toNat := by
  have ho := (opBits o).isLt
  have hd := d.isLt
  rw [encode_ofFields, BitVec.toNat_append, ← Nat.shiftLeft_add_eq_or_of_lt hd, BitVec.toNat_append,
    ← Nat.shiftLeft_add_eq_or_of_lt ho, Nat.shiftLeft_eq, Nat.shiftLeft_eq]
  omega

/-- The fields of a word by plain arithmetic (R50). -/
theorem fields_toNat : w.toNat / 1024 = (unitBits (unitOf w)).toNat ∧
    w.toNat / 256 % 4 = (opBits (opOf w)).toNat ∧ w.toNat % 256 = (dataOf w).toNat := by
  have hword := encode_ofFields_toNat (unitOf w) (opOf w) (dataOf w)
  rw [show encode (Instr.ofFields (unitOf w) (opOf w) (dataOf w)) = w from encode_decode w] at hword
  have ho := (opBits (opOf w)).isLt
  have hd := (dataOf w).isLt
  omega

/-- The `match` of a row is the row's word with data 0 (R51). -/
theorem opcodeMatch_eq_encode : opcodeMatch u o = encode (Instr.ofFields u o 0) := by
  cases u <;> cases o <;> rfl

/-- The rows have different `match` values (R51). -/
theorem opcodeMatch_inj {u u' : UnitId} {o o' : Op} (h : opcodeMatch u o = opcodeMatch u' o') : u = u' ∧ o = o' := by
  rw [opcodeMatch_eq_encode, opcodeMatch_eq_encode] at h
  have hfields := congrArg decode h
  rw [decode_encode, decode_encode] at hfields
  exact ⟨by simpa using congrArg Instr.unit hfields, by simpa using congrArg Instr.op hfields⟩

/-- The row of every command (R51). -/
theorem opcodeRow : ∀ i : Instr, Laws.OpcodeRow.Statement i
  | .encPush x => Laws.OpcodeRow.encPush x
  | .encEnd x => Laws.OpcodeRow.encEnd x
  | .encInit x => Laws.OpcodeRow.encInit x
  | .encRsvd x => Laws.OpcodeRow.encRsvd x
  | .decPush x => Laws.OpcodeRow.decPush x
  | .decEnd x => Laws.OpcodeRow.decEnd x
  | .decInit x => Laws.OpcodeRow.decInit x
  | .decRsvd x => Laws.OpcodeRow.decRsvd x

/-- A word under the mask is its row's `match`, whatever its data field (R51). -/
theorem and_opcodeMask : w &&& opcodeMask = opcodeMatch (unitOf w) (opOf w) := by
  have hrow := opcodeRow (decode w)
  rwa [Laws.OpcodeRow.Statement, encode_decode, decode, unit_ofFields, op_ofFields] at hrow

/-- A `match` value selects its row, and the row takes the low eight bits as its data field (R51). -/
theorem decode_of_and_opcodeMask {w : Cmd} (h : w &&& opcodeMask = opcodeMatch u o) :
    decode w = Instr.ofFields u o (w.extractLsb' 0 8) := by
  obtain ⟨rfl, rfl⟩ := opcodeMatch_inj ((and_opcodeMask w).symm.trans h)
  rfl

/-- A word is its row's `match` with the data field in the low eight bits (R51). -/
theorem encode_ofFields_eq_or :
    encode (Instr.ofFields u o d) = opcodeMatch u o ||| d.setWidth 11 := by
  have hrow : opcodeMatch u o = (unitBits u ++ opBits o).shiftLeftZeroExtend 8 := by cases u <;> cases o <;> rfl
  rw [encode_ofFields, hrow, ← BitVec.setWidth'_eq (by decide)]
  exact BitVec.append_def _ _

/-- The words of a row are those between its `match` and the next one's (R51). -/
theorem exists_decode_eq_ofFields_iff : (∃ x, decode w = Instr.ofFields u o x) ↔
    w.toNat / 256 = (unitBits u).toNat * 4 + (opBits o).toNat := by
  have ho := (opBits o).isLt
  refine ⟨fun ⟨x, hx⟩ => ?_, fun h => ⟨dataOf w, ?_⟩⟩
  · have hx' := x.isLt
    rw [← encode_decode w, hx, encode_ofFields_toNat]
    omega
  · obtain ⟨-, -, hdata⟩ := fields_toNat w
    have hword : w = encode (Instr.ofFields u o (dataOf w)) := by
      apply BitVec.eq_of_toNat_eq
      rw [encode_ofFields_toNat, ← hdata]
      omega
    exact (congrArg decode hword).trans (decode_encode _)

end

/-- Settles O1: the fields of the encoded word are those of the command, and its bits are those of the word. -/
theorem encodeAndDecodeAreInverse : Obligations.EncodeAndDecodeAreInverse :=
  ⟨decode_encode, encode_decode⟩

/-- Settles O2: the value of a word by its fields, and the fields by the value. -/
theorem commandWordHasThreeFields : Obligations.CommandWordHasThreeFields := by
  refine ⟨fun u o d => ?_, fun w => ?_⟩
  · rw [encode_ofFields_toNat]
    cases u <;> cases o <;> rfl
  · obtain ⟨hu, ho, hd⟩ := fields_toNat w
    refine ⟨unitOf w, opOf w, dataOf w, rfl, hu.trans ?_, ho.trans ?_, hd⟩
    · cases unitOf w <;> rfl
    · cases opOf w <;> rfl

/-- Settles O3: each `match` value selects its row, and every word has its row's. -/
theorem opcodeMapSelectsTheRow : Obligations.OpcodeMapSelectsTheRow := by
  intro w
  refine ⟨decode_of_and_opcodeMask .enc .push, decode_of_and_opcodeMask .enc .finish,
    decode_of_and_opcodeMask .enc .init, decode_of_and_opcodeMask .enc .rsvd,
    decode_of_and_opcodeMask .dec .push, decode_of_and_opcodeMask .dec .finish,
    decode_of_and_opcodeMask .dec .init, decode_of_and_opcodeMask .dec .rsvd, ?_⟩
  rw [show w &&& 0x700 = opcodeMatch (unitOf w) (opOf w) from and_opcodeMask w]
  cases unitOf w <;> cases opOf w <;> decide

/-- Settles O4: ten words, each decoded. -/
theorem writtenWordsDecode : Obligations.WrittenWordsDecode := by
  unfold Obligations.WrittenWordsDecode
  decide

/-- Settles O5: the meanings of these rows do not receive the data field. -/
theorem ignoredDataFieldHasNoEffect : Obligations.IgnoredDataFieldHasNoEffect :=
  fun _ _ _ => ⟨rfl, rfl, rfl, rfl, rfl, rfl⟩

/-- Settles O34: a reserved row raises ERR_ILLEGAL, and its words are those of its row of the map. -/
theorem reservedWordsSetErrIllegal : Obligations.ReservedWordsSetErrIllegal := by
  refine ⟨fun x s => ⟨rfl, rfl⟩, fun w => ⟨?_, ?_⟩⟩
  · have hrow : (unitBits .enc).toNat * 4 + (opBits .rsvd).toNat = 3 := rfl
    refine (exists_decode_eq_ofFields_iff .enc .rsvd w).trans ?_
    omega
  · have hrow : (unitBits .dec).toNat * 4 + (opBits .rsvd).toNat = 7 := rfl
    refine (exists_decode_eq_ofFields_iff .dec .rsvd w).trans ?_
    omega

end Sys2Proof.Machine

/-! The pseudo-instructions (30_encoding.md R63) as words. -/

namespace Sys2Proof.Machine

/-- The words of `U.CHUNK` (R63, R112). -/
theorem chunk_words (u : UnitId) (xs : List Byte) :
    (chunk u xs).map encode = xs.map (fun b => opcodeMatch u .push ||| b.setWidth 11) := by
  rw [chunk, List.map_map]
  exact List.map_congr_left fun b _ => encode_ofFields_eq_or u .push b

/-- The words of `U.ENDWITH`: those of the chunk and then the word of `U.END` (R63, R114). -/
theorem endWith_words (u : UnitId) (xs : List Byte) :
    (endWith u xs).map encode =
      xs.map (fun b => opcodeMatch u .push ||| b.setWidth 11) ++ [opcodeMatch u .finish] := by
  rw [endWith, List.map_append, chunk_words]
  cases u <;> rfl

/-- The words of `ENCODE` and `DECODE`: the word of `U.INIT` and then those of `U.ENDWITH` (R63). -/
theorem oneShot_words (u : UnitId) (xs : List Byte) :
    (oneShot u xs).map encode = opcodeMatch u .init ::
      (xs.map (fun b => opcodeMatch u .push ||| b.setWidth 11) ++ [opcodeMatch u .finish]) := by
  rw [oneShot, List.map_cons, endWith_words]
  cases u <;> rfl

/-- Settles O6: each form, at each unit. -/
theorem pseudoInstructionsExpandToWords : Obligations.PseudoInstructionsExpandToWords := fun xs =>
  ⟨oneShot_words .enc xs, oneShot_words .dec xs, chunk_words .enc xs, chunk_words .dec xs,
    endWith_words .enc xs, endWith_words .dec xs⟩

end Sys2Proof.Machine

/-! The assembler text (30_encoding.md R62): a line is cut into its name and its operands. -/

namespace Sys2Proof.Machine

/-- Every name of the assembler is one word. -/
theorem asmNames_oneWord : ∀ p ∈ asmNames, p.1.toList ≠ [] ∧ ∀ c ∈ p.1.toList, endsWord c = false := by
  have hall : asmNames.all (fun p => !p.1.toList.isEmpty && p.1.toList.all (fun c => !endsWord c)) = true := by
    decide
  intro p hp
  simpa using List.all_eq_true.mp hall p hp

section
variable {s : String} {f : List Byte → Option (List Instr)}

/-- A line that begins with a name is cut after it, where a blank or a comment begins or the text ends. -/
theorem assembleLine_of_name {rest : List Char}
    (hname : asmNames.find? (fun p => p.1.toList == s.toList) = some (s, f))
    (hrest : ∀ c ∈ rest.head?, endsWord c = true) :
    assembleLine (s.toList ++ rest) = (operands rest.length rest).bind f := by
  obtain ⟨hne, hchars⟩ := asmNames_oneWord _ (List.mem_of_find?_eq_some hname)
  have hstart : (s.toList ++ rest).dropWhile isBlank = s.toList ++ rest := by
    obtain ⟨c, cs, hs⟩ := List.exists_cons_of_ne_nil hne
    have hc := (Bool.or_eq_false_iff.mp (hchars c (hs ▸ List.mem_cons_self))).1
    rw [hs, List.cons_append, List.dropWhile_cons_of_neg (by simp [hc])]
  have hword : ∀ c ∈ s.toList, (!endsWord c) = true := fun c hc => by simp [hchars c hc]
  have htake : rest.takeWhile (fun c => !endsWord c) = [] := by
    cases rest with
    | nil => rfl
    | cons c cs => simp [hrest c rfl]
  have hdrop : rest.dropWhile (fun c => !endsWord c) = rest := by
    cases rest with
    | nil => rfl
    | cons c cs => simp [hrest c rfl]
  simp only [assembleLine, hstart, List.takeWhile_append_of_pos hword, List.dropWhile_append_of_pos hword,
    htake, hdrop, List.append_nil, if_neg hne, hname]

end

theorem digitValue_hexDigit : ∀ n : BitVec 4, digitValue (hexDigit n) = some n.toNat := by
  decide

theorem endsWord_hexDigit : ∀ n : BitVec 4, endsWord (hexDigit n) = false := by
  decide

theorem digitsValue_hexDigit_pair (hi lo : BitVec 4) :
    digitsValue 16 [hexDigit hi, hexDigit lo] = some (hi.toNat * 16 + lo.toNat) := by
  have hhi : hi.toNat < 16 := hi.isLt
  have hlo : lo.toNat < 16 := lo.isLt
  simp [digitsValue, digitValue_hexDigit, hhi, hlo]

/-- A byte written as `0x` and two digits is read back. -/
theorem numberValue_hexByte (b : Byte) : numberValue (hexByte b) = some b := by
  have hdigits : (b.extractLsb' 4 4).toNat * 16 + (b.extractLsb' 0 4).toNat = b.toNat := by
    have := b.isLt
    rw [BitVec.extractLsb'_toNat, BitVec.extractLsb'_toNat, Nat.shiftRight_eq_div_pow, Nat.shiftRight_zero]
    omega
  simp only [numberValue, hexByte, digitsValue_hexDigit_pair, hdigits, if_pos b.isLt, BitVec.ofNat_toNat,
    BitVec.setWidth_eq]

/-- A byte written as `0x` and two digits is one word of the line. -/
theorem endsWord_hexByte (b : Byte) : ∀ c ∈ hexByte b, (!endsWord c) = true := by
  intro c hc
  simp only [hexByte, List.mem_cons, List.not_mem_nil, or_false] at hc
  obtain rfl | rfl | rfl | rfl := hc
  · rfl
  · rfl
  · rw [endsWord_hexDigit]; rfl
  · rw [endsWord_hexDigit]; rfl

theorem oneOperand_hexByte (b : Byte) : oneOperand (hexByte b) = some (b, []) := by
  have htake : (hexByte b).takeWhile (fun c => !endsWord c) = hexByte b :=
    List.takeWhile_eq_self_iff.mpr (endsWord_hexByte b)
  have hdrop : (hexByte b).dropWhile (fun c => !endsWord c) = [] :=
    List.dropWhile_eq_nil_iff.mpr (endsWord_hexByte b)
  unfold oneOperand
  rw [htake, hdrop, numberValue_hexByte]
  rfl

/-- A blank and one byte are one operand. -/
theorem operands_hexByte (b : Byte) : operands 5 (' ' :: hexByte b) = some [b] := by
  have hskip : (' ' :: hexByte b).dropWhile isBlank = '0' :: (hexByte b).tail := rfl
  have hbyte : oneOperand ('0' :: (hexByte b).tail) = some (b, []) := oneOperand_hexByte b
  have hlen : ¬ (' ' :: hexByte b).length = ('0' :: (hexByte b).tail).length := by simp [hexByte]
  have hmark : ¬ ('0' == ';') = true := by decide
  simp only [operands, hskip, if_neg hmark, if_neg hlen, hbyte, List.dropWhile_nil, Option.map_some]

section
variable (s : String) (f : Byte → Instr) (b : Byte)

/-- The text of a command with one operand. -/
theorem assembleWords_withByte
    (hname : asmNames.find? (fun p => p.1.toList == s.toList) = some (s, withByte f)) :
    assembleWords (s.toList ++ ' ' :: hexByte b) = some [encode (f b)] := by
  have hline : assembleLine (s.toList ++ ' ' :: hexByte b) = (operands 5 (' ' :: hexByte b)).bind (withByte f) :=
    assembleLine_of_name hname (by simp [endsWord, isBlank])
  rw [assembleWords, hline, operands_hexByte]
  rfl

/-- The text of a command without operand; its canonical form has data 0 (R52, R62). -/
theorem assembleWords_plain (hb : (b == 0) = true)
    (hname : asmNames.find? (fun p => p.1.toList == s.toList) = some (s, plain (f 0))) :
    assembleWords s.toList = some [encode (f b)] := by
  obtain rfl : b = 0 := beq_iff_eq.mp hb
  have hline := assembleLine_of_name (rest := []) hname nofun
  rw [List.append_nil] at hline
  rw [assembleWords, hline]
  rfl

end

/-- Settles O7: each command with a text, by its name in the table of names. -/
theorem canonicalTextAssembles : Obligations.CanonicalTextAssembles := by
  intro i text hcanonical htext
  cases i <;> cases htext
  case encPush d => exact assembleWords_withByte "ENC.PUSH" .encPush d rfl
  case encEnd x => exact assembleWords_plain "ENC.END" .encEnd x hcanonical rfl
  case encInit x => exact assembleWords_plain "ENC.INIT" .encInit x hcanonical rfl
  case decPush c => exact assembleWords_withByte "DEC.PUSH" .decPush c rfl
  case decEnd x => exact assembleWords_plain "DEC.END" .decEnd x hcanonical rfl
  case decInit x => exact assembleWords_plain "DEC.INIT" .decInit x hcanonical rfl

end Sys2Proof.Machine

/-! The tables (30_encoding.md R54, R55), the pair value (R56) and the group width (R57). -/

namespace Sys2Proof.Machine

/-- Settles O8: the table is closed data, and each range of it is read entry by entry. -/
theorem alphabetTableIsAsListed : Obligations.AlphabetTableIsAsListed :=
  ⟨alphaTable_length, by decide, by decide, by decide, by decide, by decide⟩

/-- The table undoes the lookup (R55). -/
theorem alpha_of_rlut {c : Byte} {i : Sym} (h : rlut c = some i) : alpha i.toNat = c := by
  obtain ⟨k, hk, rfl⟩ := Option.map_eq_some_iff.mp h
  obtain ⟨hlt, hc, -⟩ := List.findIdx?_eq_some_iff_getElem.mp hk
  rw [alphaTable_length] at hlt
  rw [BitVec.toNat_ofNat, Nat.mod_eq_of_lt (by omega), alpha_eq_getElem k hlt]
  exact beq_iff_eq.mp hc

/-- The code at an index below 91 is looked up at that index (R55). -/
theorem rlut_of_alpha {c : Byte} {i n : Nat} (hi : i < 91) (ha : alpha i = BitVec.ofNat 8 n) (hn : n = c.toNat) :
    rlut c = some (BitVec.ofNat 7 i) := by
  rw [← rlut_alpha i hi, ha, hn, BitVec.ofNat_toNat, BitVec.setWidth_eq]

/-- The codes that are no character of the alphabet (R55). -/
theorem rlut_eq_none_iff : ∀ c : Byte, rlut c = none ↔
    (c.toNat ≤ 0x20 ∨ c = 0x27 ∨ c = 0x2D ∨ c = 0x5C ∨ c = 0x7F ∨ 0x80 ≤ c.toNat) := by
  decide

/-- The alphabet leaves 165 of the 256 codes (R55). -/
theorem noise_count : ((List.range 256).filter (fun n => (rlut (BitVec.ofNat 8 n)).isNone)).length = 165 := by
  decide +kernel

/-- Settles O9: lookup and table undo each other, so each range of the lookup is a range of the table. -/
theorem reverseLookupUndoesAlphabet : Obligations.ReverseLookupUndoesAlphabet := by
  obtain ⟨-, -, hupper, hlower, hdigits, -⟩ := alphabetTableIsAsListed
  refine ⟨fun c i => ⟨fun h => ⟨rlut_le c i h, alpha_of_rlut h⟩, fun ⟨hi, hc⟩ => ?_⟩,
    fun c hlo hhi => ?_, fun c hlo hhi => ?_, fun c hlo hhi => ?_, rlut_eq_none_iff, noise_count⟩
  · rw [← hc, rlut_alpha i.toNat (by omega), BitVec.ofNat_toNat, BitVec.setWidth_eq]
  · exact rlut_of_alpha (by omega) (hupper _ (by omega)) (by omega)
  · exact rlut_of_alpha (by omega) (hlower _ (by omega) (by omega)) (by omega)
  · exact rlut_of_alpha (by omega) (hdigits _ (by omega) (by omega)) (by omega)

/-- Settles O10: the digits of a value in base 91 are its pair. -/
theorem pairValueIsABijection : Obligations.PairValueIsABijection := by
  refine ⟨fun lo hi hlo hhi => ?_, fun v hv => ⟨BitVec.ofNat 7 (v % 91), BitVec.ofNat 7 (v / 91), ?_⟩⟩
  · have hle := pairValue_le hlo hhi
    rw [pairValue_toNat] at hle ⊢
    omega
  · rw [pairValue_toNat, BitVec.toNat_ofNat, BitVec.toNat_ofNat]
    omega

/-- Bit 13 tells the long values of 8192 and more from those up to 88 (R57). -/
theorem getLsbD_13 (v : Acc) : v.getLsbD 13 = decide (v.toNat / 8192 % 2 = 1) :=
  Nat.testBit_eq_decide_div_mod_eq

/-- A value up to 8280 fills its group: nothing of it is above the group's bits (R57). -/
theorem groupValue_of_le {v : Acc} (hv : v.toNat ≤ 8280) : groupValue v = v := by
  apply BitVec.eq_of_toNat_eq
  by_cases hs : 88 < v.toNat % 8192
  · rw [(group_short v hs).2]
    omega
  · rw [(group_long v (by omega)).2]
    omega

/-- What the encoder emits keeps the low 13 bits of the accumulator, which alone decide the width, and is a pair value
(R57, R73). -/
theorem groupValue_toNat_mod (acc : Acc) :
    (groupValue acc).toNat % 8192 = acc.toNat % 8192 ∧ (groupValue acc).toNat ≤ 8280 := by
  by_cases hs : 88 < acc.toNat % 8192
  · rw [(group_short acc hs).2]
    omega
  · rw [(group_long acc (by omega)).2]
    omega

/-- Settles O11: the width is a function of the low 13 bits, which every class and every emitted group fixes. -/
theorem groupWidthClasses : Obligations.GroupWidthClasses := by
  refine ⟨groupWidth_eq, fun v hv => ⟨fun h88 => ?_, fun h89 h8191 => ?_, fun h8192 => ?_, groupValue_of_le hv⟩,
    fun acc => ?_⟩
  · exact ⟨(group_long v (by omega)).1, by omega, by rw [getLsbD_13, decide_eq_false_iff_not]; omega⟩
  · exact ⟨(group_short v (by omega)).1, by omega⟩
  · exact ⟨(group_long v (by omega)).1, by omega, by rw [getLsbD_13, decide_eq_true_iff]; omega⟩
  · obtain ⟨hmod, hle⟩ := groupValue_toNat_mod acc
    exact ⟨by rw [groupWidth_eq, groupWidth_eq, hmod], hle⟩

end Sys2Proof.Machine

/-! Noise (30_encoding.md R60, 41_decoder.md R92): a code outside the alphabet at the decoder. -/

namespace Sys2Proof.Machine

/-- A push of noise is skipped (R92). -/
theorem Dec.push_noise {d : Dec} {c : Byte} (hc : rlut c = none) : d.push c = d := by
  simp [Dec.push, decOperand, hc]

/-- Settles O27: noise is skipped on an open unit, and the open check comes before the lookup on a closed one. -/
theorem decPushSkipsNoise : Obligations.DecPushSkipsNoise := by
  refine fun c s hnoise => ⟨fun hopen => ?_, fun hclosed => ?_⟩
  · rw [exec_eq, afterExec_decPush_open s c hopen, onDec, Dec.push_noise hnoise]
  · rw [exec_eq, afterExec_decPush_closed s c hclosed]
    rfl

end Sys2Proof.Machine

/-! Alphabet closure (40_encoder.md R75, 42_sequences.md R121): every index the encoder reads `ALPHA` at is at most 90. -/

namespace Sys2Proof.Machine

/-- With at most `n` bits buffered the value is below `2 ^ n` (R17 a). -/
theorem Enc.acc_toNat_lt_of_bits_le {e : Enc} {n : Nat} (hinv : e.inv) (h : e.bits.toNat ≤ n) :
    e.acc.toNat < 2 ^ n := by
  obtain ⟨hacc, -⟩ := hinv
  exact hacc.trans_le (Nat.pow_le_pow_right (by decide) h)

/-- The flush takes an accumulator of at most 13 bits (R17, R75). -/
theorem Enc.acc_toNat_lt {e : Enc} (hinv : e.inv) : e.acc.toNat < 8192 := by
  have ⟨_, hbits, _⟩ := hinv
  exact Enc.acc_toNat_lt_of_bits_le hinv hbits

/-- The two characters of a value up to 8280 are alphabet characters (R56, R75). -/
theorem pair_inAlphabet {v : Nat} (hv : v ≤ 8280) :
    ∀ x ∈ [Item.byte (alpha (v % 91)), .byte (alpha (v / 91))], x.inAlphabet := by
  intro x hx
  rw [List.mem_pair] at hx
  obtain rfl | rfl := hx
  · exact alpha_mem _ (by omega)
  · exact alpha_mem _ (by omega)

/-- A group appends alphabet characters, whatever the accumulator (R75). -/
theorem Enc.group_inAlphabet {e : Enc} (hout : ∀ x ∈ e.out, x.inAlphabet) :
    ∀ x ∈ e.group.out, x.inAlphabet := by
  rw [Enc.group_out]
  exact List.forall_mem_append.mpr ⟨hout, pair_inAlphabet (groupValue_toNat_mod e.acc).2⟩

/-- `ENC.PUSH` appends alphabet characters, in every state. -/
theorem Enc.push_inAlphabet {e : Enc} (d : Byte) (hout : ∀ x ∈ e.out, x.inAlphabet) :
    ∀ x ∈ (e.push d).out, x.inAlphabet :=
  repeatWhile_keeps (fun a : Enc => ∀ x ∈ a.out, x.inAlphabet) groupReady Enc.group
    (fun _ _ => Enc.group_inAlphabet) encRounds (e.accumulate d) hout

/-- `ENC.END` under R17 appends alphabet characters and `eos` (R76). -/
theorem Enc.finish_inAlphabet {e : Enc} (hinv : e.inv) (hout : ∀ x ∈ e.out, x.inAlphabet) :
    ∀ x ∈ e.finish.out, x.inAlphabet := by
  have hlt := Enc.acc_toNat_lt hinv
  rw [Enc.finish_out, Enc.flush_out, List.forall_mem_append, List.forall_mem_append, List.forall_mem_singleton]
  refine ⟨⟨hout, ?_⟩, trivial⟩
  split_ifs
  · exact nofun
  · exact pair_inAlphabet (by omega)
  · exact List.forall_mem_singleton.mpr (alpha_mem _ (by omega))

/-- Every command keeps alphabet closure: only `ENC.PUSH` and `ENC.END` append to `ENC.out`. -/
theorem afterExec_alphabetClosed (i : Instr) {s : State} (hinv : s.enc.inv) (hs : alphabetClosed s) :
    alphabetClosed (afterExec i s) := by
  rcases afterExec_cases i s with ⟨k, h⟩ |
      ⟨-, ⟨d, -, -, h⟩ | ⟨_, -, -, h⟩ | ⟨_, -, h⟩⟩ | ⟨-, ⟨_, -, -, h⟩ | ⟨_, -, -, h⟩ | ⟨_, -, h⟩⟩ <;> rw [h]
  · cases i.unit <;> exact hs
  · exact Enc.push_inAlphabet d hs
  · exact Enc.finish_inAlphabet hinv hs
  all_goals exact hs

/-- Settles O48: a step idles, runs one command or empties the stream. -/
theorem stepKeepsAlphabetClosure : Obligations.StepKeepsAlphabetClosure := by
  intro s t hinv hs hstep
  rcases step_cases s with ⟨-, h⟩ | ⟨w, rest, -, h⟩ | ⟨rest, -, h⟩ <;> rw [h] at hstep
  · cases hstep
    exact hs
  · rw [exec_next hstep]
    exact afterExec_alphabetClosed (decode w) (s := { s with input := rest }) hinv hs
  · cases hstep
    exact fun _ hx => absurd hx List.not_mem_nil

/-- Settles O22: the group by its width, and the flush by the bound of R17. -/
theorem emittedIndicesAreInRange : Obligations.EmittedIndicesAreInRange := by
  refine ⟨fun acc => ?_, fun e hinv => ?_⟩
  · by_cases hs : 88 < acc.toNat % 8192
    · obtain ⟨hw, hv⟩ := group_short acc hs
      rw [hw, hv]
      omega
    · obtain ⟨hw, hv⟩ := group_long acc (by omega)
      rw [hw, hv]
      omega
  · have hlt := Enc.acc_toNat_lt hinv
    omega

end Sys2Proof.Machine

/-! The commands of the encoder as whole next states (40_encoder.md R70 to R78). -/

namespace Sys2Proof.Machine

/-- The high three bits of a command word are its unit and its operation (R50). -/
theorem extractLsb'_encode_ofFields (u : UnitId) (o : Op) (d : Byte) :
    (encode (Instr.ofFields u o d)).extractLsb' 8 3 = unitBits u ++ opBits o := by
  rw [encode_ofFields]
  exact BitVec.extractLsb'_append_eq_left

section
variable {e : Enc} (d : Byte)

/-- Step 1 as a whole next encoder (R72). -/
theorem Enc.accumulate_eq (h : e.bits.toNat ≤ 13) : e.accumulate d =
    { e with
      acc := BitVec.ofNat 24 (e.acc.toNat ||| (d.toNat <<< e.bits.toNat))
      bits := BitVec.ofNat 5 (e.bits.toNat + 8) } := by
  obtain ⟨hacc, hbits⟩ := Enc.accumulate_toNat d e h
  rw [← hacc, ← hbits, BitVec.ofNat_toNat, BitVec.ofNat_toNat, BitVec.setWidth_eq, BitVec.setWidth_eq]
  rfl

/-- Step 2 as a whole next encoder, in terms of the group's width and value (R73). -/
theorem Enc.group_eq (h : 13 < e.bits.toNat) : e.group =
    { e with
      acc := BitVec.ofNat 24 (e.acc.toNat / 2 ^ groupWidth e.acc)
      bits := BitVec.ofNat 5 (e.bits.toNat - groupWidth e.acc)
      out := e.out ++ [.byte (alpha ((groupValue e.acc).toNat % 91)), .byte (alpha ((groupValue e.acc).toNat / 91))] } := by
  have hbits := Enc.group_bits_toNat e h
  rw [← hbits, ← dropBits_toNat, BitVec.ofNat_toNat, BitVec.ofNat_toNat, BitVec.setWidth_eq, BitVec.setWidth_eq,
    ← Enc.group_out]
  rfl

/-- `ENC.PUSH` with 13 bits or fewer buffered is an accumulation and at most one group (R74). -/
theorem Enc.push_eq_ite (h : e.bits.toNat ≤ 13) : e.push d =
    if (e.accumulate d).bits.toNat > 13 then (e.accumulate d).group else e.accumulate d := by
  have hcount := (Enc.accumulate_toNat d e h).2
  by_cases h5 : e.bits.toNat ≤ 5
  · rw [if_neg (by omega), Enc.push_no_group d e h5]
  · rw [if_pos (by omega), Enc.push_one_group d e (by omega) h]

/-- No bit buffered: `eos` alone (R77). -/
theorem Enc.finish_out_none (h : e.bits.toNat = 0) : e.finish.out = e.out ++ [.eos] := by
  rw [Enc.finish_out, Enc.flush_out, if_pos h, List.append_nil]

/-- At most 7 bits and a value up to 90: one character (R77). -/
theorem Enc.finish_out_one (h1 : 1 ≤ e.bits.toNat) (h7 : e.bits.toNat ≤ 7) (ha : e.acc.toNat ≤ 90) :
    e.finish.out = e.out ++ [.byte (alpha e.acc.toNat), .eos] := by
  rw [Enc.finish_out, Enc.flush_out, if_neg (by omega), if_neg (by omega), Nat.mod_eq_of_lt (by omega),
    List.append_assoc]
  rfl

/-- More than 7 bits or a value above 90: two characters (R77). -/
theorem Enc.finish_out_two (h1 : 1 ≤ e.bits.toNat) (h : 7 < e.bits.toNat ∨ 90 < e.acc.toNat) :
    e.finish.out = e.out ++ [.byte (alpha (e.acc.toNat % 91)), .byte (alpha (e.acc.toNat / 91)), .eos] := by
  rw [Enc.finish_out, Enc.flush_out, if_neg (by omega), if_pos h, List.append_assoc]
  rfl

end

/-! What `exec` answers for `ENC.PUSH` and `ENC.END` (R71, R76): the unit's change on an open encoder, ERR_CLOSED on a closed
one (R132). -/

theorem exec_encPush_closed {s : State} (d : Byte) (h : s.enc.isOpen = false) :
    exec (.encPush d) s = .next { s with enc := { s.enc with err := s.enc.err ||| 0b01 } } := by
  rw [exec_eq, afterExec_encPush_closed s d h]
  rfl

theorem exec_encEnd_closed {s : State} (x : Byte) (h : s.enc.isOpen = false) :
    exec (.encEnd x) s = .next { s with enc := { s.enc with err := s.enc.err ||| 0b01 } } := by
  rw [exec_eq, afterExec_encEnd_closed s x h]
  rfl

theorem exec_encPush_open {s : State} (d : Byte) (h : s.enc.isOpen = true) :
    exec (.encPush d) s = .next { s with enc := s.enc.push d } := by
  rw [exec_eq, afterExec_encPush_open s d h]
  rfl

theorem exec_encEnd_open {s : State} (x : Byte) (h : s.enc.isOpen = true) :
    exec (.encEnd x) s = .next { s with enc := s.enc.finish } := by
  rw [exec_eq, afterExec_encEnd_open s x h]
  rfl

/-- Settles O19: the meaning of `ENC.INIT`, and the word by its fields. -/
theorem encInitCreatesAFreshState : Obligations.EncInitCreatesAFreshState :=
  ⟨fun _ _ => rfl, fun x => extractLsb'_encode_ofFields .enc .init x, rfl⟩

/-- Settles O20: the push is an accumulation and at most one group, each a whole next encoder. -/
theorem encPushResult : Obligations.EncPushResult := by
  refine ⟨fun d s hopen hbits => ?_, fun d s => exec_encPush_closed d, encode_ofFields_eq_or .enc .push⟩
  obtain ⟨hacc, hcount⟩ := Enc.accumulate_toNat d s.enc hbits
  refine ⟨?_, fun ⟨hlow, _⟩ => ?_⟩
  · rw [exec_encPush_open d hopen, Enc.push_eq_ite d hbits]
    by_cases h13 : s.enc.bits.toNat + 8 ≤ 13
    · rw [if_neg (by omega), if_pos h13, Enc.accumulate_eq d hbits]
    · rw [if_pos (by omega), if_neg h13]
      split_ifs with hs
      · obtain ⟨hw, hv⟩ := group_short (s.enc.accumulate d).acc (by omega)
        rw [Enc.group_eq (by omega), hw, hv, hacc, hcount]
        rfl
      · obtain ⟨hw, hv⟩ := group_long (s.enc.accumulate d).acc (by omega)
        rw [Enc.group_eq (by omega), hw, hv, hacc, hcount]
        rfl
  · obtain ⟨hadd, -, hlt⟩ := Enc.accumulate_exact d hlow hbits
    rw [hacc] at hadd hlt
    rw [hcount] at hlt
    exact ⟨hadd, hlt, hlt.trans_le (Nat.pow_le_pow_right (by decide) (by omega))⟩

/-- Settles O21: the loop as an `if`, whose two branches are the counts up to 5 and those from 6. -/
theorem encPushLoopRunsAtMostOnce : Obligations.EncPushLoopRunsAtMostOnce := by
  intro d s hopen hbits
  obtain ⟨hacc, hcount⟩ := Enc.accumulate_toNat d s.enc hbits
  refine ⟨Enc.push_eq_ite d hbits, _, exec_encPush_open d hopen, fun h5 => ?_, fun h6 => ?_⟩
  · dsimp only
    rw [Enc.push_no_group d s.enc h5]
    exact ⟨rfl, hcount⟩
  · dsimp only
    rw [Enc.push_one_group d s.enc h6 hbits]
    refine ⟨⟨_, _, Enc.group_out _⟩, ?_⟩
    rw [Enc.group_bits_toNat _ (by omega), groupWidth_eq, hacc, hcount]
    split_ifs <;> omega

/-- Settles O23: the flush in every state, then the cleared and closed unit. -/
theorem encEndResult : Obligations.EncEndResult := by
  refine ⟨fun x s hopen => ?_, fun x s => exec_encEnd_closed x,
    fun x => extractLsb'_encode_ofFields .enc .finish x, rfl⟩
  rw [exec_encEnd_open x hopen]
  congr 2
  refine Enc.ext rfl rfl rfl (Enc.finish_err _) ?_
  rcases Nat.eq_zero_or_pos s.enc.bits.toNat with h0 | hpos
  · refine (Enc.finish_out_none h0).trans ?_
    simp [h0]
  · by_cases h2 : 7 < s.enc.bits.toNat ∨ 90 < s.enc.acc.toNat
    · refine (Enc.finish_out_two hpos h2).trans ?_
      simp [hpos, h2]
    · have hmod : s.enc.acc.toNat % 91 = s.enc.acc.toNat := Nat.mod_eq_of_lt (by omega)
      refine (Enc.finish_out_one hpos (by omega) (by omega)).trans ?_
      simp [hpos, h2, hmod]

/-- Settles O24: no, one or two characters, with R17's bound on the value at each count. -/
theorem encFlushCases : Obligations.EncFlushCases := by
  intro x s hopen hinv
  refine ⟨_, exec_encEnd_open x hopen, fun h0 => ⟨?_, Enc.finish_out_none h0⟩, fun h1 h6 => ?_, fun h7 ha => ?_,
    fun h7 ha => ?_, fun h8 => ?_⟩
  · have hlt := Enc.acc_toNat_lt_of_bits_le hinv h0.le
    exact BitVec.eq_of_toNat_eq (Nat.lt_one_iff.mp hlt)
  · have hlt := Enc.acc_toNat_lt_of_bits_le hinv h6
    exact ⟨by omega, Enc.finish_out_one h1 (by omega) (by omega)⟩
  · exact Enc.finish_out_one (by omega) h7.le ha
  · have hlt := Enc.acc_toNat_lt_of_bits_le hinv h7.le
    have hmod : s.enc.acc.toNat % 91 = s.enc.acc.toNat - 91 := by omega
    have hdiv : s.enc.acc.toNat / 91 = 1 := by omega
    have hout := Enc.finish_out_two (e := s.enc) (by omega) (.inr ha)
    rw [hmod, hdiv] at hout
    exact ⟨by omega, hout⟩
  · have hlt := Enc.acc_toNat_lt hinv
    exact ⟨by omega, Enc.finish_out_two (by omega) (.inl h8)⟩

/-- Settles O25: the open check fails, R17 c gives the kept data state, and `ENC.INIT` has no open check. -/
theorem closedEncoderFaults : Obligations.ClosedEncoderFaults := fun x _ hclosed =>
  ⟨exec_encPush_closed x hclosed, exec_encEnd_closed x hclosed, fun ⟨_, _, hzero⟩ => hzero hclosed,
    _, rfl, rfl, rfl⟩

end Sys2Proof.Machine

/-! The commands of the decoder as whole next states (41_decoder.md R90 to R100). -/

namespace Sys2Proof.Machine

/-! What `exec` answers for `DEC.PUSH` and `DEC.END` (R91, R98): the unit's change on an open decoder, ERR_CLOSED on a closed
one (R100). -/

theorem exec_decPush_closed {s : State} (c : Byte) (h : s.dec.isOpen = false) :
    exec (.decPush c) s = .next { s with dec := { s.dec with err := s.dec.err ||| 0b01 } } := by
  rw [exec_eq, afterExec_decPush_closed s c h]
  rfl

theorem exec_decEnd_closed {s : State} (x : Byte) (h : s.dec.isOpen = false) :
    exec (.decEnd x) s = .next { s with dec := { s.dec with err := s.dec.err ||| 0b01 } } := by
  rw [exec_eq, afterExec_decEnd_closed s x h]
  rfl

theorem exec_decPush_open {s : State} (c : Byte) (h : s.dec.isOpen = true) :
    exec (.decPush c) s = .next { s with dec := s.dec.push c } := by
  rw [exec_eq, afterExec_decPush_open s c h]
  rfl

theorem exec_decEnd_open {s : State} (x : Byte) (h : s.dec.isOpen = true) :
    exec (.decEnd x) s = .next { s with dec := s.dec.finish } := by
  rw [exec_eq, afterExec_decEnd_open s x h]
  rfl

section
variable {d : Dec}

/-- A second symbol is combined with the one held (R94). -/
theorem Dec.push_combine {c : Byte} {i : Sym} (hi : rlut c = some i) (hp : d.pendValid = true) :
    d.push c = d.combine i := by
  simp [Dec.push, decOperand, hi, hp]

/-- The merge of the held symbol and a new one, as arithmetic on the two indices (R94, R95). -/
theorem Dec.mergePair_pair_toNat (idx : Sym) (h : d.bits.toNat ≤ 7) :
    (d.mergePair (pairValue d.pend idx)).acc.toNat =
        d.acc.toNat ||| ((d.pend.toNat + idx.toNat * 91) <<< d.bits.toNat) ∧
      (d.mergePair (pairValue d.pend idx)).bits.toNat =
        d.bits.toNat + if 88 < (d.pend.toNat + idx.toNat * 91) % 8192 then 13 else 14 := by
  rw [← pairValue_toNat, ← groupWidth_eq]
  exact Dec.mergePair_toNat d _ h (by rw [pairValue_toNat]; omega)

/-- After the merge of a pair 13 to 21 bits are held (R97). -/
theorem Dec.mergePair_pair_bits_bounds (idx : Sym) (h : d.bits.toNat ≤ 7) :
    13 ≤ (d.mergePair (pairValue d.pend idx)).bits.toNat ∧ (d.mergePair (pairValue d.pend idx)).bits.toNat ≤ 21 := by
  rw [(Dec.mergePair_pair_toNat idx h).2]
  split_ifs <;> omega

/-- The low byte of the accumulator as a remainder (R96). -/
theorem lowByte_eq_mod (a : Acc) : a.setWidth 8 = BitVec.ofNat 8 (a.toNat % 256) := by
  apply BitVec.eq_of_toNat_eq
  simp

/-- An emitted byte takes 8 bits from a count of 8 or more (R96). -/
theorem Dec.emitByte_toNat (h : 8 ≤ d.bits.toNat) :
    d.emitByte.acc.toNat = d.acc.toNat / 256 ∧ d.emitByte.bits.toNat = d.bits.toNat - 8 :=
  ⟨dropBits_toNat _ 8, countDown_toNat _ 8 h⟩

/-- One emitted byte as a whole next decoder (R96). -/
theorem Dec.emitByte_eq (h : 8 ≤ d.bits.toNat) : d.emitByte =
    { d with
      acc := BitVec.ofNat 24 (d.acc.toNat / 256)
      bits := BitVec.ofNat 5 (d.bits.toNat - 8)
      out := d.out ++ [.byte (BitVec.ofNat 8 (d.acc.toNat % 256))] } := by
  obtain ⟨hacc, hbits⟩ := Dec.emitByte_toNat h
  rw [← lowByte_eq_mod, ← hacc, ← hbits, BitVec.ofNat_toNat, BitVec.ofNat_toNat, BitVec.setWidth_eq, BitVec.setWidth_eq]
  rfl

/-- Two emitted bytes as a whole next decoder, the older one first (R96). -/
theorem Dec.emitByte_emitByte_eq (h : 16 ≤ d.bits.toNat) : d.emitByte.emitByte =
    { d with
      acc := BitVec.ofNat 24 (d.acc.toNat / 65536)
      bits := BitVec.ofNat 5 (d.bits.toNat - 16)
      out := d.out ++ [.byte (BitVec.ofNat 8 (d.acc.toNat % 256)), .byte (BitVec.ofNat 8 (d.acc.toNat / 256 % 256))] } := by
  obtain ⟨hacc, hbits⟩ := Dec.emitByte_toNat (d := d) (by omega)
  rw [Dec.emitByte_eq (d := d.emitByte) (by omega), hbits, hacc, Nat.div_div_eq_div_mul, Nat.sub_sub,
    Dec.emitByte_out, lowByte_eq_mod, List.append_assoc]
  rfl

/-- Nothing pending: `DEC.END` appends `eos` alone, and leftover bits are dropped (R99). -/
theorem Dec.finish_out_none (hp : d.pendValid = false) : d.finish.out = d.out ++ [.eos] := by
  rw [Dec.finish_out, Dec.flush_out, if_neg (by simp [hp]), List.append_nil]

/-- A symbol pending: `DEC.END` appends one byte and `eos`, whatever the bits are (R99). -/
theorem Dec.finish_out_pending (hp : d.pendValid = true) : d.finish.out =
    d.out ++ [.byte ((mergeBits d.acc d.bits (d.pend.setWidth 24)).setWidth 8), .eos] := by
  rw [Dec.finish_out, Dec.flush_out, if_pos hp, List.append_assoc]
  rfl

/-- The merge of the flush under R18: an exact addition of 7 bits (R99). -/
theorem Dec.flush_merge_exact (hinv : d.inv) :
    (mergeBits d.acc d.bits (d.pend.setWidth 24)).toNat = d.acc.toNat + d.pend.toNat * 2 ^ d.bits.toNat ∧
      d.acc.toNat + d.pend.toNat * 2 ^ d.bits.toNat < 2 ^ 14 := by
  obtain ⟨hacc, hbits, -⟩ := hinv
  have hpend : (d.pend.setWidth 24).toNat = d.pend.toNat := BitVec.toNat_setWidth_of_le (by decide)
  obtain ⟨hadd, hlt⟩ := mergeBits_exact (v := d.pend.setWidth 24) (w := 7) hacc (hpend ▸ d.pend.isLt) (by omega)
  rw [hpend] at hadd
  exact ⟨hadd, hadd ▸ hlt.trans_le (Nat.pow_le_pow_right (by decide) (by omega))⟩

end

/-- Settles O29: the merge, and then the one or two bytes that the loop takes from its 13 to 21 bits. -/
theorem decPushCombinesAPair : Obligations.DecPushCombinesAPair := by
  intro c idx s hopen hp hc hbits v a b
  obtain ⟨hacc, hcount⟩ : (s.dec.mergePair (pairValue s.dec.pend idx)).acc.toNat = a ∧
    (s.dec.mergePair (pairValue s.dec.pend idx)).bits.toNat = b := Dec.mergePair_pair_toNat idx hbits
  have hb : 13 ≤ b ∧ b ≤ 21 := hcount ▸ Dec.mergePair_pair_bits_bounds idx hbits
  refine ⟨?_, fun ⟨hlow, _, hpend, _⟩ => ?_⟩
  · rw [exec_decPush_open c hopen, Dec.push_combine hc hp]
    by_cases h15 : b ≤ 15
    · rw [if_pos h15, Dec.combine_one_byte _ _ (by omega) (by omega), Dec.emitByte_eq (by omega), hacc, hcount]
      rfl
    · rw [if_neg h15, Dec.combine_two_bytes _ _ (by omega) (by omega), Dec.emitByte_emitByte_eq (by omega), hacc,
        hcount]
      rfl
  · have hv := pairValue_le (hpend hp) (rlut_le c idx hc)
    obtain ⟨hadd, -, hlt⟩ := Dec.mergePair_exact hlow hbits hv
    rw [pairValue_toNat] at hv hadd
    rw [hacc] at hadd hlt
    rw [hcount] at hlt
    exact ⟨hv, hadd, hlt, hlt.trans_le (Nat.pow_le_pow_right (by decide) hb.2)⟩

/-- Settles O30: the same two cases of the loop, read as counts. -/
theorem decCombineEmitsOneOrTwoBytes : Obligations.DecCombineEmitsOneOrTwoBytes := by
  intro c idx s hopen hp hc hbits b
  have hcount : (s.dec.mergePair (pairValue s.dec.pend idx)).bits.toNat = b := (Dec.mergePair_pair_toNat idx hbits).2
  have hb : 13 ≤ b ∧ b ≤ 21 := hcount ▸ Dec.mergePair_pair_bits_bounds idx hbits
  have hexec := exec_decPush_open c hopen
  rw [Dec.push_combine hc hp] at hexec
  refine ⟨hb.1, hb.2, ?_⟩
  by_cases h15 : b ≤ 15
  · rw [Dec.combine_one_byte _ _ (by omega) (by omega)] at hexec
    refine ⟨_, [_], hexec, rfl, fun _ => ⟨rfl, ?_, by omega, by omega⟩, by omega⟩
    exact hcount ▸ (Dec.emitByte_toNat (by omega)).2
  · rw [Dec.combine_two_bytes _ _ (by omega) (by omega)] at hexec
    refine ⟨_, [_, _], hexec, List.append_assoc _ [_] [_], by omega, fun _ => ⟨rfl, ?_, by omega⟩⟩
    have hone := (Dec.emitByte_toNat (d := s.dec.mergePair (pairValue s.dec.pend idx)) (by omega)).2
    exact (Dec.emitByte_toNat (by omega)).2.trans (by omega)

/-- Settles O31: the flush in every state, then the cleared and closed unit. -/
theorem decEndResult : Obligations.DecEndResult := by
  refine ⟨fun x s hopen => ?_, fun x s => exec_decEnd_closed x,
    fun x => extractLsb'_encode_ofFields .dec .finish x, rfl⟩
  rw [exec_decEnd_open x hopen, ← heldByte_eq, ← Dec.flush_out]
  congr 2
  exact Dec.ext rfl rfl rfl rfl rfl (Dec.finish_err _) rfl

/-- Settles O32: `eos` alone, or the one byte of the flush's merge, which R18 makes an exact addition. -/
theorem decFlushCases : Obligations.DecFlushCases := by
  intro x s hopen hinv
  obtain ⟨hadd, hlt⟩ := Dec.flush_merge_exact hinv
  refine ⟨_, exec_decEnd_open x hopen, Dec.finish_out_none, fun hp => ⟨hlt, ?_⟩⟩
  rw [← hadd, ← lowByte_eq_mod]
  exact Dec.finish_out_pending hp

/-- Settles O26: the meaning of `DEC.INIT`, and the word by its fields. -/
theorem decInitCreatesAFreshState : Obligations.DecInitCreatesAFreshState :=
  ⟨fun _ _ => rfl, fun x => extractLsb'_encode_ofFields .dec .init x, rfl⟩

/-- Settles O28: a push with nothing pending holds its symbol, whatever the index. -/
theorem decPushHoldsTheFirstSymbol : Obligations.DecPushHoldsTheFirstSymbol := by
  intro c idx s hopen hp hc
  rw [exec_decPush_open c hopen, Dec.push_hold hc hp]
  rfl

/-- Settles O33: the open check fails before any lookup, and `DEC.INIT` has no open check. -/
theorem closedDecoderFaults : Obligations.ClosedDecoderFaults := fun x _ hclosed =>
  ⟨exec_decPush_closed x hclosed, exec_decEnd_closed x hclosed, _, rfl, rfl, rfl⟩

end Sys2Proof.Machine

/-! Runs of commands (42_sequences.md R112, R113): a run goes on from where its first part ended, so chunk boundaries do not
exist. -/

namespace Sys2Proof.Machine

/-- A run of two parts is the second part from the state that the first part left (R112). -/
theorem runInstrs_append {first : List Instr} {s t : State} (h : runInstrs first s = .next t) (second : List Instr) :
    runInstrs (first ++ second) s = runInstrs second t := by
  rw [runInstrs_eq] at h
  rw [runInstrs_eq, runInstrs_eq, List.foldl_append, Host.Outcome.next.inj h]

theorem chunk_append (u : UnitId) (xs ys : List Byte) : chunk u (xs ++ ys) = chunk u xs ++ chunk u ys :=
  List.map_append

theorem chunk_flatten (u : UnitId) (chunks : List (List Byte)) :
    chunk u chunks.flatten = (chunks.map (chunk u)).flatten :=
  List.map_flatten

/-- Settles O51: the two sequences are one list of commands, and a chunk is carried on from where the one before it ended. -/
theorem chunkingDoesNotMatter : Obligations.ChunkingDoesNotMatter := by
  refine ⟨fun u chunks s => ?_, fun u xs ys s => ⟨_, runInstrs_eq (chunk u xs) s, ?_⟩⟩
  · rw [oneShot, endWith, chunk_flatten, List.append_assoc]
    rfl
  · rw [chunk_append, runInstrs_append (runInstrs_eq _ s)]

end Sys2Proof.Machine

/-! The open flags (42_sequences.md R116, R118). -/

namespace Sys2Proof.Machine

/-- A fault leaves both units open or closed as they were (R131). -/
@[simp] theorem isOpen_raise (u v : UnitId) (k : ErrKind) (s : State) : isOpen u (raise v k s) = isOpen u s := by
  cases u <;> cases v <;> rfl

/-- A command under the open check leaves a closed unit closed (R132). -/
theorem isOpen_whenOpen (u : UnitId) (run : State → State) (s : State) :
    isOpen u (whenOpen u run s) = (isOpen u s && isOpen u (run s)) := by
  cases ho : isOpen u s
  · rw [whenOpen_closed u run s ho, isOpen_raise, ho, Bool.false_and]
  · rw [whenOpen_open u run s ho, Bool.true_and]

/-- The state machine of the unit that a command addresses (R116). -/
theorem isOpen_afterExec_unit (i : Instr) (s : State) : isOpen i.unit (afterExec i s) =
    match i.op with
    | .init => true
    | .finish => false
    | .push | .rsvd => isOpen i.unit s := by
  cases i with
  | encPush d => exact (isOpen_whenOpen .enc (onEnc (Enc.push d)) s).trans (by simp [Instr.op, Instr.unit])
  | decPush c => exact (isOpen_whenOpen .dec (onDec (Dec.push c)) s).trans (by simp [Instr.op, Instr.unit])
  | encEnd _ => exact (isOpen_whenOpen .enc (onEnc Enc.finish) s).trans (by simp [Instr.op])
  | decEnd _ => exact (isOpen_whenOpen .dec (onDec Dec.finish) s).trans (by simp [Instr.op])
  | encInit _ | decInit _ | encRsvd _ | decRsvd _ => rfl

/-- A command does not open or close the unit that it does not address (R43, R118). -/
theorem isOpen_afterExec_of_ne {i : Instr} {u : UnitId} (hne : i.unit ≠ u) (s : State) :
    isOpen u (afterExec i s) = isOpen u s := by
  cases u <;> cases hi : i.unit
  · exact absurd hi hne
  · exact congrArg Enc.isOpen (afterExec_enc_of_unit_dec hi s)
  · exact congrArg Dec.isOpen (afterExec_dec_of_unit_enc hi s)
  · exact absurd hi hne

/-- Settles O39: the addressed unit by its state machine, the other one by the frame. -/
theorem openClosedStateMachine : Obligations.OpenClosedStateMachine := by
  refine fun i s => ⟨afterExec i s, exec_eq i s, fun u => ?_⟩
  split_ifs with hu
  · subst hu
    exact (isOpen_afterExec_unit i s).trans (by cases i.op <;> rfl)
  · exact isOpen_afterExec_of_ne hu s

end Sys2Proof.Machine

/-! The one-shot forms (42_sequences.md R110, R111): what `ENCODE` and `DECODE` append is a function of their operands alone.
Both units read their data state and never their stream or fault record, so a run from any state is the run of a reset unit
with the earlier items in front. -/

namespace Sys2Proof.Machine

/-- A loop commutes with a change that its test does not see and its body commutes with. -/
theorem repeatWhile_comm {α : Type} {test : α → Bool} {body f : α → α} (ht : ∀ a, test (f a) = test a)
    (hb : ∀ a, body (f a) = f (body a)) (n : Nat) (a : α) :
    repeatWhile test body n (f a) = f (repeatWhile test body n a) := by
  induction n generalizing a with
  | zero => rfl
  | succ n ih =>
    simp only [repeatWhile, ht, hb, ih]
    split_ifs <;> rfl

/-! The encoder. -/

/-- The encoder `e` as it is if its stream goes on from that of `e₀`, and its fault record is that of `e₀`. -/
def Enc.goOnFrom (e₀ e : Enc) : Enc :=
  { e with err := e₀.err, out := e₀.out ++ e.out }

@[simp] theorem Enc.goOnFrom_out (e₀ e : Enc) : (e₀.goOnFrom e).out = e₀.out ++ e.out := rfl

/-- `ENC.INIT` starts a reset encoder after the earlier items (R70). -/
theorem Enc.clear_eq_goOnFrom (e : Enc) : e.clear true = e.goOnFrom Enc.reset :=
  Enc.ext rfl rfl rfl rfl (List.append_nil _).symm

theorem Enc.push_goOnFrom (e₀ e : Enc) (b : Byte) : (e₀.goOnFrom e).push b = e₀.goOnFrom (e.push b) := by
  have hgroup : ∀ a, Enc.group (e₀.goOnFrom a) = e₀.goOnFrom a.group := fun a =>
    Enc.ext rfl rfl rfl rfl (by simp only [Enc.group_out, Enc.goOnFrom_out, List.append_assoc]; rfl)
  exact repeatWhile_comm (test := groupReady) (f := e₀.goOnFrom) (fun _ => rfl) hgroup encRounds (e.accumulate b)

theorem Enc.finish_goOnFrom (e₀ e : Enc) : (e₀.goOnFrom e).finish = e₀.goOnFrom e.finish := by
  refine Enc.ext rfl rfl rfl (Enc.finish_err _) ?_
  simp only [Enc.finish_out, Enc.flush_out, Enc.goOnFrom_out, List.append_assoc]
  rfl

/-- The encoder after a chunk of bytes (R112). -/
def Enc.pushAll (e : Enc) (bs : List Byte) : Enc :=
  bs.foldl (fun a b => a.push b) e

@[simp] theorem Enc.pushAll_nil (e : Enc) : e.pushAll [] = e := rfl
@[simp] theorem Enc.pushAll_cons (e : Enc) (b : Byte) (bs : List Byte) :
    e.pushAll (b :: bs) = (e.push b).pushAll bs := rfl

@[simp] theorem Enc.pushAll_isOpen (e : Enc) (bs : List Byte) : (e.pushAll bs).isOpen = e.isOpen := by
  induction bs generalizing e with
  | nil => rfl
  | cons b bs ih => rw [Enc.pushAll_cons, ih, Enc.push_isOpen]

theorem Enc.pushAll_goOnFrom (e₀ e : Enc) (bs : List Byte) :
    (e₀.goOnFrom e).pushAll bs = e₀.goOnFrom (e.pushAll bs) := by
  induction bs generalizing e with
  | nil => rfl
  | cons b bs ih => rw [Enc.pushAll_cons, Enc.push_goOnFrom, ih, Enc.pushAll_cons]

/-- A chunk appends data items only, after every earlier item (R34). -/
theorem Enc.pushAll_appends (e : Enc) (bs : List Byte) :
    ∃ text : List Byte, (e.pushAll bs).out = e.out ++ text.map .byte := by
  induction bs generalizing e with
  | nil => exact ⟨[], (List.append_nil _).symm⟩
  | cons b bs ih =>
    obtain ⟨first, hfirst⟩ := Enc.push_appends b e
    obtain ⟨rest, hrest⟩ := ih (e.push b)
    exact ⟨first ++ rest, by rw [Enc.pushAll_cons, hrest, hfirst, List.map_append, List.append_assoc]⟩

/-- A chunk to an open encoder keeps R17. -/
theorem Enc.pushAll_inv {e : Enc} (bs : List Byte) (hopen : e.isOpen = true) (hinv : e.inv) : (e.pushAll bs).inv := by
  induction bs generalizing e with
  | nil => exact hinv
  | cons b bs ih => exact ih (by rwa [Enc.push_isOpen]) (Enc.push_inv b hopen hinv)

/-- The result of `ENCODE` (R110): what a reset encoder appends before `eos`. -/
def encodeText (bs : List Byte) : List Byte :=
  dataItems (Enc.reset.pushAll bs).finish.out

theorem Enc.finish_pushAll_reset_out (bs : List Byte) :
    (Enc.reset.pushAll bs).finish.out = (encodeText bs).map .byte ++ [.eos] := by
  obtain ⟨body, hbody⟩ := Enc.pushAll_appends Enc.reset bs
  obtain ⟨tail, htail, -⟩ := Enc.finish_appends (Enc.reset.pushAll bs)
  have hout : (Enc.reset.pushAll bs).finish.out = (body ++ tail).map .byte ++ [.eos] := by
    rw [htail, hbody, List.map_append]
    rfl
  rw [encodeText, hout, dataItems_bytes_eos]

/-- `ENC.CHUNK` and `ENC.END` on an open encoder (R112, R114). -/
theorem runInstrs_endWith_enc (bs : List Byte) {s : State} (hopen : s.enc.isOpen = true) :
    runInstrs (endWith .enc bs) s = .next (onEnc (fun e => (e.pushAll bs).finish) s) := by
  have hopen' : (onEnc (fun e => e.pushAll bs) s).enc.isOpen = true := by simpa using hopen
  rw [endWith, runInstrs_append (runInstrs_chunk_enc bs s hopen), runInstrs_cons]
  exact congrArg Host.Outcome.next (afterExec_encEnd_open _ 0 hopen')

/-- `ENCODE` runs as from reset, after the earlier items (R110). -/
theorem runInstrs_encodeSeq (bs : List Byte) (s : State) :
    runInstrs (encodeSeq bs) s = .next (onEnc (fun e => e.goOnFrom (Enc.reset.pushAll bs).finish) s) := by
  rw [encodeSeq, oneShot, runInstrs_cons]
  refine (runInstrs_endWith_enc bs rfl).trans ?_
  show Host.Outcome.next { s with enc := ((s.enc.clear true).pushAll bs).finish } = _
  rw [Enc.clear_eq_goOnFrom, Enc.pushAll_goOnFrom, Enc.finish_goOnFrom]
  rfl

/-- What a run appends to a stream, where it appends data items and then `eos`. -/
theorem appended_eq {u : UnitId} {is : List Instr} {s t : State} {bytes : List Byte} (hrun : runInstrs is s = .next t)
    (hout : outOf u t = outOf u s ++ bytes.map .byte ++ [.eos]) : appended u is s = some bytes := by
  simp only [appended, hrun, hout, List.append_assoc, List.drop_left, dataItems_bytes_eos]

theorem Enc.goOnFrom_finish_pushAll_out (bs : List Byte) (s : State) :
    (s.enc.goOnFrom (Enc.reset.pushAll bs).finish).out = s.enc.out ++ (encodeText bs).map .byte ++ [.eos] := by
  rw [Enc.goOnFrom_out, Enc.finish_pushAll_reset_out, List.append_assoc]

/-- The result of `ENCODE` does not depend on the state (R110). -/
theorem encodeFrom_eq (s : State) (bs : List Byte) : encodeFrom s bs = some (encodeText bs) :=
  appended_eq (runInstrs_encodeSeq bs s) (Enc.goOnFrom_finish_pushAll_out bs s)

/-- Settles O49: the text is `encodeText`, from any state and from reset without the INIT. -/
theorem encodeIsAFunctionOfTheBytes : Obligations.EncodeIsAFunctionOfTheBytes := by
  refine fun bs => ⟨encodeText bs,
    fun s => ⟨encodeFrom_eq s bs, _, runInstrs_encodeSeq bs s, Enc.goOnFrom_finish_pushAll_out bs s⟩, ?_, ?_⟩
  · rintro rfl
    rfl
  · exact appended_eq (runInstrs_endWith_enc bs rfl) (Enc.finish_pushAll_reset_out bs)

/-! The decoder. -/

/-- The decoder `d` as it is if its stream goes on from that of `d₀`, and its fault record is that of `d₀`. -/
def Dec.goOnFrom (d₀ d : Dec) : Dec :=
  { d with err := d₀.err, out := d₀.out ++ d.out }

@[simp] theorem Dec.goOnFrom_out (d₀ d : Dec) : (d₀.goOnFrom d).out = d₀.out ++ d.out := rfl

/-- `DEC.INIT` starts a reset decoder after the earlier items (R90). -/
theorem Dec.clear_eq_goOnFrom (d : Dec) : d.clear true = d.goOnFrom Dec.reset :=
  Dec.ext rfl rfl rfl rfl rfl rfl (List.append_nil _).symm

theorem Dec.combine_goOnFrom (d₀ d : Dec) (idx : Sym) :
    (d₀.goOnFrom d).combine idx = d₀.goOnFrom (d.combine idx) := by
  have hbyte : ∀ a, Dec.emitByte (d₀.goOnFrom a) = d₀.goOnFrom a.emitByte := fun a =>
    Dec.ext rfl rfl rfl rfl rfl rfl (List.append_assoc _ _ _)
  have hloop := repeatWhile_comm (test := byteReady) (f := d₀.goOnFrom) (fun _ => rfl) hbyte decRounds
    (d.mergePair (pairValue d.pend idx))
  exact congrArg (fun a : Dec => { a with pendValid := false, pend := 0 }) hloop

theorem Dec.push_goOnFrom (d₀ d : Dec) (c : Byte) : (d₀.goOnFrom d).push c = d₀.goOnFrom (d.push c) := by
  rcases Dec.push_cases c d with ⟨hc, h⟩ | ⟨i, hc, hp, h⟩ | ⟨i, hc, hp, h⟩ <;> rw [h]
  · exact Dec.push_noise hc
  · exact Dec.push_hold hc hp
  · exact (Dec.push_combine (d := d₀.goOnFrom d) hc hp).trans (Dec.combine_goOnFrom d₀ d i)

theorem Dec.finish_goOnFrom (d₀ d : Dec) : (d₀.goOnFrom d).finish = d₀.goOnFrom d.finish := by
  refine Dec.ext rfl rfl rfl rfl rfl (Dec.finish_err _) ?_
  simp only [Dec.finish_out, Dec.flush_out, Dec.goOnFrom_out, List.append_assoc]
  rfl

/-- The decoder after a chunk of character codes (R112). -/
def Dec.pushAll (d : Dec) (cs : List Byte) : Dec :=
  cs.foldl (fun a c => a.push c) d

@[simp] theorem Dec.pushAll_nil (d : Dec) : d.pushAll [] = d := rfl
@[simp] theorem Dec.pushAll_cons (d : Dec) (c : Byte) (cs : List Byte) :
    d.pushAll (c :: cs) = (d.push c).pushAll cs := rfl

@[simp] theorem Dec.pushAll_isOpen (d : Dec) (cs : List Byte) : (d.pushAll cs).isOpen = d.isOpen := by
  induction cs generalizing d with
  | nil => rfl
  | cons c cs ih => rw [Dec.pushAll_cons, ih, Dec.push_isOpen]

theorem Dec.pushAll_goOnFrom (d₀ d : Dec) (cs : List Byte) :
    (d₀.goOnFrom d).pushAll cs = d₀.goOnFrom (d.pushAll cs) := by
  induction cs generalizing d with
  | nil => rfl
  | cons c cs ih => rw [Dec.pushAll_cons, Dec.push_goOnFrom, ih, Dec.pushAll_cons]

/-- A chunk appends data items only, after every earlier item (R34). -/
theorem Dec.pushAll_appends (d : Dec) (cs : List Byte) :
    ∃ bytes : List Byte, (d.pushAll cs).out = d.out ++ bytes.map .byte := by
  induction cs generalizing d with
  | nil => exact ⟨[], (List.append_nil _).symm⟩
  | cons c cs ih =>
    obtain ⟨first, hfirst⟩ := Dec.push_appends c d
    obtain ⟨rest, hrest⟩ := ih (d.push c)
    exact ⟨first ++ rest, by rw [Dec.pushAll_cons, hrest, hfirst, List.map_append, List.append_assoc]⟩

/-- The result of `DECODE` (R111): what a reset decoder appends before `eos`. -/
def decodeBytes (cs : List Byte) : List Byte :=
  dataItems (Dec.reset.pushAll cs).finish.out

theorem decodeBytes_eq_of_out {cs bytes : List Byte}
    (hout : (Dec.reset.pushAll cs).finish.out = bytes.map .byte ++ [.eos]) : decodeBytes cs = bytes := by
  rw [decodeBytes, hout, dataItems_bytes_eos]

theorem Dec.finish_pushAll_reset_out (cs : List Byte) :
    (Dec.reset.pushAll cs).finish.out = (decodeBytes cs).map .byte ++ [.eos] := by
  obtain ⟨body, hbody⟩ := Dec.pushAll_appends Dec.reset cs
  obtain ⟨tail, htail, -⟩ := Dec.finish_appends (Dec.reset.pushAll cs)
  have hout : (Dec.reset.pushAll cs).finish.out = (body ++ tail).map .byte ++ [.eos] := by
    rw [htail, hbody, List.map_append]
    rfl
  rw [decodeBytes_eq_of_out hout, hout]

/-- `DEC.CHUNK` and `DEC.END` on an open decoder (R112, R114). -/
theorem runInstrs_endWith_dec (cs : List Byte) {s : State} (hopen : s.dec.isOpen = true) :
    runInstrs (endWith .dec cs) s = .next (onDec (fun d => (d.pushAll cs).finish) s) := by
  have hopen' : (onDec (fun d => d.pushAll cs) s).dec.isOpen = true := by simpa using hopen
  rw [endWith, runInstrs_append (runInstrs_chunk_dec cs s hopen), runInstrs_cons]
  exact congrArg Host.Outcome.next (afterExec_decEnd_open _ 0 hopen')

/-- `DECODE` runs as from reset, after the earlier items (R111). -/
theorem runInstrs_decodeSeq (cs : List Byte) (s : State) :
    runInstrs (decodeSeq cs) s = .next (onDec (fun d => d.goOnFrom (Dec.reset.pushAll cs).finish) s) := by
  rw [decodeSeq, oneShot, runInstrs_cons]
  refine (runInstrs_endWith_dec cs rfl).trans ?_
  show Host.Outcome.next { s with dec := ((s.dec.clear true).pushAll cs).finish } = _
  rw [Dec.clear_eq_goOnFrom, Dec.pushAll_goOnFrom, Dec.finish_goOnFrom]
  rfl

theorem Dec.goOnFrom_finish_pushAll_out (cs : List Byte) (s : State) :
    (s.dec.goOnFrom (Dec.reset.pushAll cs).finish).out = s.dec.out ++ (decodeBytes cs).map .byte ++ [.eos] := by
  rw [Dec.goOnFrom_out, Dec.finish_pushAll_reset_out, List.append_assoc]

/-- The result of `DECODE` does not depend on the state (R111). -/
theorem decodeFrom_eq (s : State) (cs : List Byte) : decodeFrom s cs = some (decodeBytes cs) :=
  appended_eq (runInstrs_decodeSeq cs s) (Dec.goOnFrom_finish_pushAll_out cs s)

/-- Settles O50: the bytes are `decodeBytes`, from any state and from reset without the INIT. -/
theorem decodeIsAFunctionOfTheText : Obligations.DecodeIsAFunctionOfTheText := by
  refine fun cs => ⟨decodeBytes cs,
    fun s => ⟨decodeFrom_eq s cs, _, runInstrs_decodeSeq cs s, Dec.goOnFrom_finish_pushAll_out cs s⟩, ?_, ?_⟩
  · rintro rfl
    rfl
  · exact appended_eq (runInstrs_endWith_dec cs rfl) (Dec.finish_pushAll_reset_out cs)

end Sys2Proof.Machine

/-! Noise in a text (42_sequences.md R120, R122), and the alphabet of an encode (R121). -/

namespace Sys2Proof.Machine

/-- A chunk leaves the decoder as its symbols alone do (R122). -/
theorem Dec.pushAll_stripNoise (d : Dec) (cs : List Byte) : d.pushAll (stripNoise cs) = d.pushAll cs := by
  induction cs generalizing d with
  | nil => rfl
  | cons c cs ih =>
    cases hc : rlut c with
    | none =>
      have hstrip : stripNoise (c :: cs) = stripNoise cs := List.filter_cons_of_neg (by simp [hc])
      rw [hstrip, ih, Dec.pushAll_cons, Dec.push_noise hc]
    | some i =>
      have hstrip : stripNoise (c :: cs) = c :: stripNoise cs := List.filter_cons_of_pos (by simp [hc])
      rw [hstrip, Dec.pushAll_cons, ih, Dec.pushAll_cons]

/-- `DECODE` runs as it does on the symbols of its text alone (R122). -/
theorem runInstrs_decodeSeq_stripNoise (cs : List Byte) (s : State) :
    runInstrs (decodeSeq (stripNoise cs)) s = runInstrs (decodeSeq cs) s := by
  rw [runInstrs_decodeSeq, runInstrs_decodeSeq, Dec.pushAll_stripNoise]

theorem decodeBytes_stripNoise (cs : List Byte) : decodeBytes (stripNoise cs) = decodeBytes cs := by
  rw [decodeBytes, Dec.pushAll_stripNoise, decodeBytes]

/-- Settles O55: noise changes no run of pushes, and pushed in the middle of a sequence it gives the same state again. -/
theorem noiseIsTolerated : Obligations.NoiseIsTolerated := by
  refine ⟨fun s cs => ⟨decodeBytes cs, decodeFrom_eq s cs, ?_⟩, fun before after c s t hrun hopen hnoise => ?_, by decide⟩
  · rw [decodeFrom_eq, decodeBytes_stripNoise]
  · rw [runInstrs_append hrun, runInstrs_append hrun, runInstrs_cons, afterExec_decPush_open t c hopen, onDec,
      Dec.push_noise hnoise]

/-- Settles O53: the runs from reset over no operands, and three spaces strip to no symbols. -/
theorem emptyInputAppendsOnlyEos : Obligations.EmptyInputAppendsOnlyEos := by
  refine fun s => ⟨runInstrs_encodeSeq [] s, runInstrs_decodeSeq [] s, ?_⟩
  have hstrip : stripNoise [0x20, 0x20, 0x20] = [] := by decide
  rw [← runInstrs_decodeSeq_stripNoise, hstrip]

/-- A chunk to the encoder appends alphabet characters (R121). -/
theorem Enc.pushAll_inAlphabet {e : Enc} (bs : List Byte) (hout : ∀ x ∈ e.out, x.inAlphabet) :
    ∀ x ∈ (e.pushAll bs).out, x.inAlphabet := by
  induction bs generalizing e with
  | nil => exact hout
  | cons b bs ih => exact ih (Enc.push_inAlphabet b hout)

/-- Settles O54: the pushes and the flush of a reset encoder append alphabet characters. -/
theorem encodeEmitsAlphabetOnly : Obligations.EncodeEmitsAlphabetOnly := by
  refine fun s bs => ⟨encodeText bs, encodeFrom_eq s bs, fun c hc => ?_⟩
  have hinv : (Enc.reset.pushAll bs).inv := Enc.pushAll_inv bs rfl (Enc.clear_inv true Enc.reset)
  have hall := Enc.finish_inAlphabet hinv (Enc.pushAll_inAlphabet bs fun _ hx => absurd hx List.not_mem_nil)
  rw [Enc.finish_pushAll_reset_out] at hall
  exact hall (.byte c) (List.mem_append_left _ (List.mem_map_of_mem hc))

end Sys2Proof.Machine

/-! Bit streams. Both units cut one stream of bits anew: ENC takes bytes and gives groups of 13 or 14 bits, DEC takes groups
and gives bytes, and an accumulator holds the bits that do not fill the next piece (00_scope.md R5). -/

namespace Sys2Proof.Machine

/-- The low `n` bits of a value, oldest first (R5). -/
def lowBits (n x : Nat) : List Bool :=
  (List.range n).map x.testBit

@[simp] theorem lowBits_zero (x : Nat) : lowBits 0 x = [] := rfl

@[simp] theorem lowBits_length (n x : Nat) : (lowBits n x).length = n := by
  simp [lowBits]

/-- The bits of a value are its low bits and then those of the rest. -/
theorem lowBits_add (m n x : Nat) : lowBits (m + n) x = lowBits m x ++ lowBits n (x / 2 ^ m) := by
  simp only [lowBits, List.range_add, List.map_append, List.map_map]
  congr 1
  refine List.map_congr_left fun i _ => ?_
  rw [Nat.testBit_div_two_pow, Function.comp_apply, Nat.add_comm]

theorem lowBits_mod_two_pow (n x : Nat) : lowBits n (x % 2 ^ n) = lowBits n x :=
  List.map_congr_left fun i hi => by
    rw [Nat.testBit_mod_two_pow, decide_eq_true (List.mem_range.mp hi), Bool.true_and]

/-- A value placed above `m` valid bits comes after them in the stream (R5). -/
theorem lowBits_merge {m x : Nat} (hx : x < 2 ^ m) (n v : Nat) :
    lowBits (m + n) (x + v * 2 ^ m) = lowBits m x ++ lowBits n v := by
  rw [lowBits_add, ← lowBits_mod_two_pow m, Nat.add_mul_mod_self_right, Nat.mod_eq_of_lt hx,
    Nat.add_mul_div_right _ _ (Nat.two_pow_pos m), Nat.div_eq_of_lt hx, Nat.zero_add]

theorem eq_of_lowBits_eq {n x y : Nat} (hx : x < 2 ^ n) (hy : y < 2 ^ n) (h : lowBits n x = lowBits n y) : x = y := by
  refine Nat.eq_of_testBit_eq fun i => ?_
  by_cases hi : i < n
  · exact List.map_inj_left.mp h i (List.mem_range.mpr hi)
  · have hpow : 2 ^ n ≤ 2 ^ i := Nat.pow_le_pow_right (by decide) (Nat.le_of_not_lt hi)
    rw [Nat.testBit_lt_two_pow (hx.trans_le hpow), Nat.testBit_lt_two_pow (hy.trans_le hpow)]

/-- The stream of a list of bytes. -/
def byteBits (bs : List Byte) : List Bool :=
  bs.flatMap fun b => lowBits 8 b.toNat

theorem byteBits_cons (b : Byte) (bs : List Byte) : byteBits (b :: bs) = lowBits 8 b.toNat ++ byteBits bs := rfl

theorem byteBits_append (bs bs' : List Byte) : byteBits (bs ++ bs') = byteBits bs ++ byteBits bs' :=
  List.flatMap_append

theorem byteBits_singleton (b : Byte) : byteBits [b] = lowBits 8 b.toNat :=
  List.append_nil _

@[simp] theorem byteBits_length (bs : List Byte) : (byteBits bs).length = 8 * bs.length := by
  induction bs with
  | nil => rfl
  | cons b bs ih =>
    rw [byteBits_cons, List.length_append, lowBits_length, ih, List.length_cons]
    omega

/-- A stream determines its bytes, whatever fewer than 8 bits come after them. -/
theorem bytes_eq_of_byteBits_append_eq {bs bs' : List Byte} {x y : List Bool} (hx : x.length < 8) (hy : y.length < 8)
    (h : byteBits bs ++ x = byteBits bs' ++ y) : bs = bs' := by
  induction bs generalizing bs' with
  | nil =>
    have hlen := congrArg List.length h
    simp only [List.length_append, byteBits_length, List.length_nil] at hlen
    exact (List.length_eq_zero_iff.mp (by omega)).symm
  | cons b bs ih =>
    have hlen := congrArg List.length h
    simp only [List.length_append, byteBits_length, List.length_cons] at hlen
    cases bs' with
    | nil =>
      rw [List.length_nil] at hlen
      omega
    | cons b' bs' =>
      rw [byteBits_cons, byteBits_cons, List.append_assoc, List.append_assoc] at h
      obtain ⟨hhead, htail⟩ := List.append_inj h (by rw [lowBits_length, lowBits_length])
      rw [BitVec.eq_of_toNat_eq (eq_of_lowBits_eq b.isLt b'.isLt hhead), ih htail]

/-- The bits that a pair value stands for (R57, R73). -/
def groupBits (v : Acc) : List Bool :=
  lowBits (groupWidth v) v.toNat

/-- Each group has 13 or 14 bits (R57). -/
theorem length_flatMap_groupBits (vs : List Acc) :
    13 * vs.length ≤ (vs.flatMap groupBits).length ∧ (vs.flatMap groupBits).length ≤ 14 * vs.length := by
  induction vs with
  | nil => exact ⟨le_rfl, le_rfl⟩
  | cons v vs ih =>
    have hw := groupWidth_bounds v
    rw [List.flatMap_cons, List.length_append, groupBits, lowBits_length, List.length_cons]
    omega

end Sys2Proof.Machine

/-! The encoder cuts the stream of its bytes into groups (40_encoder.md R71 to R77). -/

namespace Sys2Proof.Machine

/-- The bits that the encoder holds back (R22). -/
def Enc.heldBits (e : Enc) : List Bool :=
  lowBits e.bits.toNat e.acc.toNat

@[simp] theorem Enc.heldBits_length (e : Enc) : e.heldBits.length = e.bits.toNat :=
  lowBits_length _ _

/-- Step 1 puts the byte at the end of the stream (R72). -/
theorem Enc.accumulate_heldBits {e : Enc} (b : Byte) (hinv : e.inv) :
    (e.accumulate b).heldBits = e.heldBits ++ lowBits 8 b.toNat := by
  obtain ⟨hacc, hbits, -⟩ := hinv
  obtain ⟨hadd, hcount, -⟩ := Enc.accumulate_exact b hacc hbits
  rw [Enc.heldBits, hadd, hcount]
  exact lowBits_merge hacc 8 b.toNat

theorem groupValue_toNat (acc : Acc) : (groupValue acc).toNat = acc.toNat % 2 ^ groupWidth acc := by
  by_cases hs : 88 < acc.toNat % 8192
  · obtain ⟨hw, hv⟩ := group_short acc hs
    exact hw ▸ hv
  · obtain ⟨hw, hv⟩ := group_long acc (by omega)
    exact hw ▸ hv

/-- The group that the encoder takes stands for the oldest bits of the accumulator (R57, R73). -/
theorem groupBits_groupValue (acc : Acc) : groupBits (groupValue acc) = lowBits (groupWidth acc) acc.toNat := by
  obtain ⟨-, -, hgroup⟩ := groupWidthClasses
  rw [groupBits, (hgroup acc).1, groupValue_toNat, lowBits_mod_two_pow]

/-- Step 2 takes one group from the front of the stream (R73). -/
theorem Enc.heldBits_eq_group {e : Enc} (hready : groupReady e = true) :
    e.heldBits = groupBits (groupValue e.acc) ++ e.group.heldBits := by
  have h13 := (groupReady_iff e).mp hready
  have hw := groupWidth_bounds e.acc
  rw [groupBits_groupValue, Enc.heldBits, Enc.heldBits, Enc.group_bits_toNat e h13, Enc.group_acc, dropBits_toNat,
    ← lowBits_add, Nat.add_sub_cancel' (by omega)]

/-- The two characters of a pair value, low digit first (R36). -/
def pairText (v : Acc) : List Byte :=
  [alpha (v.toNat % 91), alpha (v.toNat / 91)]

theorem length_flatMap_pairText (vs : List Acc) : (vs.flatMap pairText).length = 2 * vs.length := by
  induction vs with
  | nil => rfl
  | cons v vs ih =>
    rw [List.flatMap_cons, List.length_append, ih, List.length_cons, pairText, List.length_cons, List.length_singleton]
    omega

/-- From `e` to `e'` the encoder took `bits` and appended the text of the groups `vs`: its stream went on by `bits`, and the
groups are its front (R73). -/
def Enc.Cuts (e : Enc) (bits : List Bool) (vs : List Acc) (e' : Enc) : Prop :=
  (∀ v ∈ vs, v.toNat ≤ 8280) ∧ e'.out = e.out ++ (vs.flatMap pairText).map .byte ∧
    e.heldBits ++ bits = vs.flatMap groupBits ++ e'.heldBits

theorem Enc.Cuts.trans {e e' e'' : Enc} {bits bits' : List Bool} {vs vs' : List Acc} (h : e.Cuts bits vs e')
    (h' : e'.Cuts bits' vs' e'') : e.Cuts (bits ++ bits') (vs ++ vs') e'' := by
  obtain ⟨hle, hout, hbits⟩ := h
  obtain ⟨hle', hout', hbits'⟩ := h'
  refine ⟨List.forall_mem_append.mpr ⟨hle, hle'⟩, ?_, ?_⟩
  · rw [hout', hout, List.flatMap_append, List.map_append, List.append_assoc]
  · rw [← List.append_assoc, hbits, List.append_assoc, hbits', List.flatMap_append, List.append_assoc]

theorem Enc.cuts_accumulate {e : Enc} (b : Byte) (hinv : e.inv) : e.Cuts (lowBits 8 b.toNat) [] (e.accumulate b) :=
  ⟨nofun, (List.append_nil _).symm, (Enc.accumulate_heldBits b hinv).symm⟩

theorem Enc.cuts_group {e : Enc} (hready : groupReady e = true) : e.Cuts [] [groupValue e.acc] e.group :=
  ⟨List.forall_mem_singleton.mpr (groupValue_toNat_mod e.acc).2, Enc.group_out e, by
    rw [List.append_nil, List.flatMap_singleton, Enc.heldBits_eq_group hready]⟩

/-- `ENC.PUSH` takes one byte into the stream and cuts off what groups it can. -/
theorem Enc.cuts_push {e : Enc} (b : Byte) (hinv : e.inv) : ∃ vs, e.Cuts (lowBits 8 b.toNat) vs (e.push b) := by
  refine repeatWhile_keeps (fun a : Enc => ∃ vs, e.Cuts (lowBits 8 b.toNat) vs a) groupReady Enc.group ?_ encRounds
    (e.accumulate b) ⟨[], Enc.cuts_accumulate b hinv⟩
  rintro a hready ⟨vs, h⟩
  exact ⟨_, by simpa using h.trans (Enc.cuts_group hready)⟩

/-- A chunk takes all its bytes into the stream (R112). -/
theorem Enc.cuts_pushAll {e : Enc} (bs : List Byte) (hopen : e.isOpen = true) (hinv : e.inv) :
    ∃ vs, e.Cuts (byteBits bs) vs (e.pushAll bs) := by
  induction bs generalizing e with
  | nil => exact ⟨[], nofun, (List.append_nil _).symm, List.append_nil _⟩
  | cons b bs ih =>
    obtain ⟨vs, h⟩ := Enc.cuts_push b hinv
    obtain ⟨vs', h'⟩ := ih (by rwa [Enc.push_isOpen]) (Enc.push_inv b hopen hinv)
    exact ⟨vs ++ vs', h.trans h'⟩

/-- The characters of the flush (R76). -/
def Enc.flushText (e : Enc) : List Byte :=
  if e.bits.toNat = 0 then []
  else if 7 < e.bits.toNat ∨ 90 < e.acc.toNat then pairText e.acc
  else [alpha (e.acc.toNat % 91)]

theorem Enc.finish_out_flushText (e : Enc) : e.finish.out = e.out ++ e.flushText.map .byte ++ [.eos] := by
  rw [Enc.finish_out, Enc.flush_out, Enc.flushText]
  split_ifs <;> rfl

/-- What `ENCODE` gives: the text of the groups of its stream, and then the flush of the bits that are left (R110). -/
theorem encodeText_spec (bs : List Byte) : ∃ (vs : List Acc) (e : Enc), e.inv ∧ (∀ v ∈ vs, v.toNat ≤ 8280) ∧
    byteBits bs = vs.flatMap groupBits ++ e.heldBits ∧ encodeText bs = vs.flatMap pairText ++ e.flushText := by
  have hinv : Enc.reset.inv := Enc.clear_inv true Enc.reset
  obtain ⟨vs, hle, hout, hbits⟩ := Enc.cuts_pushAll bs rfl hinv
  refine ⟨vs, Enc.reset.pushAll bs, Enc.pushAll_inv bs rfl hinv, hle, hbits, ?_⟩
  have hfinish : (Enc.reset.pushAll bs).finish.out =
      (vs.flatMap pairText ++ (Enc.reset.pushAll bs).flushText).map .byte ++ [.eos] := by
    rw [Enc.finish_out_flushText, hout, List.map_append]
    rfl
  rw [encodeText, hfinish, dataItems_bytes_eos]

end Sys2Proof.Machine

/-! The decoder cuts the stream of its groups into bytes (41_decoder.md R91 to R99). -/

namespace Sys2Proof.Machine

/-- The symbols of a text: noise is no symbol (R92). -/
def symbolsOf (cs : List Byte) : List Sym :=
  cs.filterMap rlut

theorem symbolsOf_length (cs : List Byte) : (symbolsOf cs).length = (stripNoise cs).length := by
  rw [symbolsOf, stripNoise, List.length_filterMap_eq_countP, List.countP_eq_length_filter]

/-- The pair values of a list of symbols (R94). -/
def groupsOf : List Sym → List Acc
  | lo :: hi :: rest => pairValue lo hi :: groupsOf rest
  | _ => []

/-- The symbol of a list that has no partner, if there is one (R93). -/
def unpaired : List Sym → List Sym
  | _ :: _ :: rest => unpaired rest
  | l => l

theorem groupsOf_unpaired_length (l : List Sym) :
    (groupsOf l).length = l.length / 2 ∧ (unpaired l).length = l.length % 2 := by
  fun_induction groupsOf l with
  | case1 lo hi rest ih =>
    rw [unpaired, List.length_cons, List.length_cons, List.length_cons]
    omega
  | case2 l hl =>
    match l with
    | [] => exact ⟨rfl, rfl⟩
    | [_] => exact ⟨by simp, by simp [unpaired]⟩
    | lo :: hi :: rest => exact absurd rfl (hl lo hi rest)

/-- The bits that the decoder holds back (R22). -/
def Dec.heldBits (d : Dec) : List Bool :=
  lowBits d.bits.toNat d.acc.toNat

@[simp] theorem Dec.heldBits_length (d : Dec) : d.heldBits.length = d.bits.toNat :=
  lowBits_length _ _

/-- The symbol that the decoder holds back, if there is one (R93). -/
def Dec.heldSymbol (d : Dec) : List Sym :=
  if d.pendValid then [d.pend] else []

/-- At most one symbol is held, so it makes no pair. -/
theorem Dec.groupsOf_unpaired_heldSymbol (d : Dec) :
    groupsOf d.heldSymbol = [] ∧ unpaired d.heldSymbol = d.heldSymbol := by
  rw [Dec.heldSymbol]
  split_ifs <;> exact ⟨rfl, rfl⟩

/-- Step 3b puts the group at the end of the stream (R94, R95). -/
theorem Dec.mergePair_heldBits {d : Dec} {v : Acc} (hinv : d.inv) (hv : v.toNat ≤ 8280) :
    (d.mergePair v).heldBits = d.heldBits ++ groupBits v := by
  obtain ⟨hacc, hbits, -⟩ := hinv
  obtain ⟨hadd, hcount, -⟩ := Dec.mergePair_exact hacc hbits hv
  rw [Dec.heldBits, hadd, hcount]
  exact lowBits_merge hacc _ _

theorem lowBits_lowByte (a : Acc) : lowBits 8 (a.setWidth 8).toNat = lowBits 8 a.toNat := by
  rw [BitVec.toNat_setWidth, lowBits_mod_two_pow]

/-- Step 3c takes one byte from the front of the stream (R96). -/
theorem Dec.heldBits_eq_emitByte {d : Dec} (hready : byteReady d = true) :
    d.heldBits = byteBits [d.acc.setWidth 8] ++ d.emitByte.heldBits := by
  have h8 : 8 ≤ d.bits.toNat := (byteReady_iff d).mp hready
  obtain ⟨hacc, hbits⟩ := Dec.emitByte_toNat h8
  rw [byteBits_singleton, lowBits_lowByte, Dec.heldBits, Dec.heldBits, hacc, hbits]
  exact (congrArg (lowBits · _) (Nat.add_sub_cancel' h8).symm).trans (lowBits_add 8 _ _)

/-- From `d` to `d'` the decoder took `bits` and appended `bytes`: its stream went on by `bits`, and the bytes are its front
(R96). -/
def Dec.Cuts (d : Dec) (bits : List Bool) (bytes : List Byte) (d' : Dec) : Prop :=
  d'.out = d.out ++ bytes.map .byte ∧ d.heldBits ++ bits = byteBits bytes ++ d'.heldBits

theorem Dec.Cuts.trans {d d' d'' : Dec} {bits bits' : List Bool} {bytes bytes' : List Byte} (h : d.Cuts bits bytes d')
    (h' : d'.Cuts bits' bytes' d'') : d.Cuts (bits ++ bits') (bytes ++ bytes') d'' := by
  obtain ⟨hout, hbits⟩ := h
  obtain ⟨hout', hbits'⟩ := h'
  constructor
  · rw [hout', hout, List.map_append, List.append_assoc]
  · rw [← List.append_assoc, hbits, List.append_assoc, hbits', byteBits_append, List.append_assoc]

theorem Dec.cuts_emitByte {d : Dec} (hready : byteReady d = true) : d.Cuts [] [d.acc.setWidth 8] d.emitByte :=
  ⟨Dec.emitByte_out d, by rw [List.append_nil, Dec.heldBits_eq_emitByte hready]⟩

/-- Combining a pair takes its group into the stream and cuts off what bytes it can. -/
theorem Dec.cuts_combine {d : Dec} {idx : Sym} (hinv : d.inv) (hv : (pairValue d.pend idx).toNat ≤ 8280) :
    ∃ bytes, d.Cuts (groupBits (pairValue d.pend idx)) bytes (d.combine idx) := by
  refine repeatWhile_keeps (fun a : Dec => ∃ bytes, d.Cuts (groupBits (pairValue d.pend idx)) bytes a) byteReady
    Dec.emitByte ?_ decRounds (d.mergePair (pairValue d.pend idx))
    ⟨[], (List.append_nil _).symm, (Dec.mergePair_heldBits hinv hv).symm⟩
  rintro a hready ⟨bytes, h⟩
  exact ⟨_, by simpa using h.trans (Dec.cuts_emitByte hready)⟩

/-- A chunk takes the groups of its symbols into the stream, the held symbol first, and holds the symbol without a partner
(R91 to R96). -/
theorem Dec.cuts_pushAll {d : Dec} (cs : List Byte) (hopen : d.isOpen = true) (hinv : d.inv) :
    (d.pushAll cs).inv ∧ (d.pushAll cs).heldSymbol = unpaired (d.heldSymbol ++ symbolsOf cs) ∧
      ∃ bytes, d.Cuts ((groupsOf (d.heldSymbol ++ symbolsOf cs)).flatMap groupBits) bytes (d.pushAll cs) := by
  induction cs generalizing d with
  | nil =>
    obtain ⟨hgroups, hunpaired⟩ := d.groupsOf_unpaired_heldSymbol
    have hnil : d.heldSymbol ++ symbolsOf [] = d.heldSymbol := List.append_nil _
    rw [hnil, hgroups, hunpaired]
    exact ⟨hinv, rfl, [], (List.append_nil _).symm, List.append_nil _⟩
  | cons c cs ih =>
    have hpush := ih (d := d.push c) (by rwa [Dec.push_isOpen]) (Dec.push_inv c hopen hinv)
    rw [← Dec.pushAll_cons] at hpush
    obtain ⟨hinv', hheld, bytes, hcuts⟩ := hpush
    rcases Dec.push_cases c d with ⟨hc, h⟩ | ⟨i, hc, hp, h⟩ | ⟨i, hc, hp, h⟩ <;> rw [h] at hheld hcuts
    · rw [symbolsOf, List.filterMap_cons_none hc]
      exact ⟨hinv', hheld, bytes, hcuts⟩
    · have hsymbols : d.heldSymbol ++ symbolsOf (c :: cs) = (d.hold i).heldSymbol ++ symbolsOf cs := by
        simp [Dec.heldSymbol, hp, symbolsOf, hc]
      rw [hsymbols]
      exact ⟨hinv', hheld, bytes, hcuts⟩
    · have hsymbols : d.heldSymbol ++ symbolsOf (c :: cs) = d.pend :: i :: ((d.combine i).heldSymbol ++ symbolsOf cs) := by
        simp [Dec.heldSymbol, hp, symbolsOf, hc]
      have ⟨_, _, hpend, _⟩ := hinv
      obtain ⟨first, hfirst⟩ := Dec.cuts_combine hinv (pairValue_le (hpend hp) (rlut_le c i hc))
      rw [hsymbols]
      exact ⟨hinv', hheld, first ++ bytes, hfirst.trans hcuts⟩

/-- The byte of the flush, if a symbol is held (R98). -/
def Dec.flushBytes (d : Dec) : List Byte :=
  d.heldSymbol.map fun p => (mergeBits d.acc d.bits (p.setWidth 24)).setWidth 8

theorem Dec.finish_out_flushBytes (d : Dec) : d.finish.out = d.out ++ d.flushBytes.map .byte ++ [.eos] := by
  rw [Dec.finish_out, Dec.flush_out, Dec.flushBytes, Dec.heldSymbol]
  split_ifs <;> rfl

/-- What `DECODE` gives: the bytes of the stream of its groups, and then the flush (R111). -/
theorem decodeBytes_spec (cs : List Byte) : ∃ (bytes : List Byte) (d : Dec), d.inv ∧
    d.heldSymbol = unpaired (symbolsOf cs) ∧
    (groupsOf (symbolsOf cs)).flatMap groupBits = byteBits bytes ++ d.heldBits ∧
    decodeBytes cs = bytes ++ d.flushBytes := by
  have hreset : Dec.reset.inv := Dec.clear_inv true Dec.reset
  obtain ⟨hinv, hheld, bytes, hout, hbits⟩ := Dec.cuts_pushAll cs rfl hreset
  refine ⟨bytes, Dec.reset.pushAll cs, hinv, hheld, hbits, decodeBytes_eq_of_out ?_⟩
  rw [Dec.finish_out_flushBytes, hout, List.map_append]
  rfl

end Sys2Proof.Machine

/-! Output sizes (42_sequences.md R123), from the lengths of the streams. -/

namespace Sys2Proof.Machine

theorem Enc.flushText_length_le (e : Enc) : e.flushText.length ≤ if e.bits.toNat = 0 then 0 else 2 := by
  rw [Enc.flushText]
  split_ifs <;> simp [pairText]

theorem encodeText_length_le (bs : List Byte) : (encodeText bs).length ≤ 2 * ((8 * bs.length + 12) / 13) := by
  obtain ⟨vs, e, -, -, hbits, htext⟩ := encodeText_spec bs
  have hlen := congrArg List.length hbits
  rw [byteBits_length, List.length_append, Enc.heldBits_length] at hlen
  have hgroups := length_flatMap_groupBits vs
  have hflush := e.flushText_length_le
  rw [htext, List.length_append, length_flatMap_pairText]
  split_ifs at hflush <;> omega

theorem decodeBytes_length_bounds (cs : List Byte) :
    13 * ((stripNoise cs).length / 2) / 8 + (stripNoise cs).length % 2 ≤ (decodeBytes cs).length ∧
      (decodeBytes cs).length ≤ 14 * ((stripNoise cs).length / 2) / 8 + (stripNoise cs).length % 2 := by
  obtain ⟨bytes, d, ⟨-, hcount, -⟩, hheld, hbits, hbytes⟩ := decodeBytes_spec cs
  obtain ⟨hpairs, hodd⟩ := groupsOf_unpaired_length (symbolsOf cs)
  have hlen := congrArg List.length hbits
  rw [List.length_append, byteBits_length, Dec.heldBits_length] at hlen
  have hgroups := length_flatMap_groupBits (groupsOf (symbolsOf cs))
  rw [hbytes, List.length_append, Dec.flushBytes, List.length_map, hheld, hodd, ← symbolsOf_length]
  omega

/-- Settles O56: 13 or 14 bits a group on both sides, and fewer than 8 bits held at the end of a decode. -/
theorem outputSizeBounds : Obligations.OutputSizeBounds :=
  ⟨fun s bs => ⟨encodeText bs, encodeFrom_eq s bs, encodeText_length_le bs⟩,
   fun s cs => ⟨decodeBytes cs, decodeFrom_eq s cs, decodeBytes_length_bounds cs⟩⟩

end Sys2Proof.Machine

/-! The round trip (42_sequences.md R119): the decoder takes from the text of an encode the groups that the encoder cut, so
both streams are one, up to the bits that the flush adds. -/

namespace Sys2Proof.Machine

/-- The symbols of the two characters of a value are its digits (R36, R55). -/
theorem symbolsOf_pairText_append {v : Acc} (hv : v.toNat ≤ 8280) (text : List Byte) :
    symbolsOf (pairText v ++ text) =
      BitVec.ofNat 7 (v.toNat % 91) :: BitVec.ofNat 7 (v.toNat / 91) :: symbolsOf text := by
  have hlo := rlut_alpha (v.toNat % 91) (by omega)
  have hhi := rlut_alpha (v.toNat / 91) (by omega)
  simp only [symbolsOf, pairText, List.cons_append, List.nil_append, List.filterMap_cons, hlo, hhi]

/-- The digits of a value give it back (R56). -/
theorem pairValue_digits {v : Acc} (hv : v.toNat ≤ 8280) :
    pairValue (BitVec.ofNat 7 (v.toNat % 91)) (BitVec.ofNat 7 (v.toNat / 91)) = v := by
  apply BitVec.eq_of_toNat_eq
  rw [pairValue_toNat, BitVec.toNat_ofNat, BitVec.toNat_ofNat]
  omega

/-- The decoder reads back the groups that the encoder wrote, whatever text comes after them. -/
theorem groupsOf_unpaired_pairText_append {vs : List Acc} (hvs : ∀ v ∈ vs, v.toNat ≤ 8280) (text : List Byte) :
    groupsOf (symbolsOf (vs.flatMap pairText ++ text)) = vs ++ groupsOf (symbolsOf text) ∧
      unpaired (symbolsOf (vs.flatMap pairText ++ text)) = unpaired (symbolsOf text) := by
  induction vs with
  | nil => exact ⟨rfl, rfl⟩
  | cons v vs ih =>
    obtain ⟨hv, hrest⟩ := List.forall_mem_cons.mp hvs
    obtain ⟨hgroups, hunpaired⟩ := ih hrest
    rw [List.flatMap_cons, List.append_assoc, symbolsOf_pairText_append hv, groupsOf, unpaired, pairValue_digits hv,
      hgroups, hunpaired]
    exact ⟨rfl, rfl⟩

/-- The text of groups alone decodes to the bytes of their stream, where fewer than 8 bits of the stream follow the bytes. -/
theorem decodeBytes_pairText {vs : List Acc} {bs : List Byte} {padding : List Bool} (hvs : ∀ v ∈ vs, v.toNat ≤ 8280)
    (hpad : padding.length < 8) (hbits : vs.flatMap groupBits = byteBits bs ++ padding) :
    decodeBytes (vs.flatMap pairText) = bs := by
  obtain ⟨bytes, d, ⟨-, hcount, -⟩, hheld, hstream, hbytes⟩ := decodeBytes_spec (vs.flatMap pairText)
  obtain ⟨hgroups, hunpaired⟩ := groupsOf_unpaired_pairText_append hvs []
  rw [List.append_nil] at hgroups hunpaired
  have hflush : d.flushBytes = [] := by
    rw [Dec.flushBytes, hheld, hunpaired]
    rfl
  have hsame : vs.flatMap groupBits = byteBits bytes ++ d.heldBits := by
    rw [← hstream, hgroups]
    exact congrArg _ (List.append_nil vs).symm
  have hheldLt : d.heldBits.length < 8 := by
    rw [Dec.heldBits_length]
    omega
  rw [hbytes, hflush, List.append_nil]
  exact (bytes_eq_of_byteBits_append_eq hpad hheldLt (hbits.symm.trans hsame)).symm

/-- The bits of the flush's byte: those held, and then those of the symbol, where they are 8 together (R98). -/
theorem lowBits_flushByte {d : Dec} {p : Sym} {n : Nat} (hinv : d.inv) (h8 : d.bits.toNat + n = 8) :
    lowBits 8 ((mergeBits d.acc d.bits (p.setWidth 24)).setWidth 8).toNat = d.heldBits ++ lowBits n p.toNat := by
  obtain ⟨hacc, hbits, -⟩ := hinv
  have hp : (p.setWidth 24).toNat = p.toNat := BitVec.toNat_setWidth_of_le (by decide)
  obtain ⟨hadd, -⟩ := mergeBits_exact (v := p.setWidth 24) (w := 7) hacc (hp ▸ p.isLt) (by omega)
  rw [lowBits_lowByte, hadd, hp, ← h8]
  exact lowBits_merge hacc n p.toNat

/-- The text of groups and one more character decodes to the bytes of their stream and the last bits, where those are 1 to
7 bits that complete the last byte. -/
theorem decodeBytes_pairText_alpha {vs : List Acc} {bs : List Byte} {n x : Nat} (hvs : ∀ v ∈ vs, v.toNat ≤ 8280)
    (hn : 1 ≤ n) (hn7 : n ≤ 7) (hx : x ≤ 90) (hbits : byteBits bs = vs.flatMap groupBits ++ lowBits n x) :
    decodeBytes (vs.flatMap pairText ++ [alpha x]) = bs := by
  obtain ⟨bytes, d, hinv, hheld, hstream, hbytes⟩ := decodeBytes_spec (vs.flatMap pairText ++ [alpha x])
  obtain ⟨hgroups, hunpaired⟩ := groupsOf_unpaired_pairText_append hvs [alpha x]
  have hlast : symbolsOf [alpha x] = [BitVec.ofNat 7 x] := by
    rw [symbolsOf, List.filterMap_cons_some (rlut_alpha x (by omega))]
    rfl
  rw [hgroups, hlast] at hstream
  have hvsBits : vs.flatMap groupBits = byteBits bytes ++ d.heldBits :=
    (congrArg _ (List.append_nil vs).symm).trans hstream
  rw [hvsBits, List.append_assoc] at hbits
  have hlen := congrArg List.length hbits
  rw [List.length_append, List.length_append, byteBits_length, byteBits_length, Dec.heldBits_length,
    lowBits_length] at hlen
  have ⟨_, hcount, _⟩ := hinv
  have hbyte := lowBits_flushByte (p := BitVec.ofNat 7 x) hinv (n := n) (by omega)
  rw [BitVec.toNat_ofNat, Nat.mod_eq_of_lt (by omega)] at hbyte
  rw [hbytes, Dec.flushBytes, hheld, hunpaired, hlast]
  refine bytes_eq_of_byteBits_append_eq (x := []) (y := []) (by decide) (by decide) ?_
  rw [List.append_nil, List.append_nil, byteBits_append, hbits, ← hbyte]
  exact congrArg _ (byteBits_singleton _)

/-- A flush of two characters is read as a group of the held bits and fewer than 8 bits above them (R77): at least 8 bits are
held, or 7 and the value above 90 makes the group short. -/
theorem Enc.groupBits_acc {e : Enc} (hinv : e.inv) (htwo : 7 < e.bits.toNat ∨ 90 < e.acc.toNat) :
    ∃ padding : List Bool, padding.length < 8 ∧ groupBits e.acc = e.heldBits ++ padding := by
  have hlt := Enc.acc_toNat_lt hinv
  have ⟨_, hbits, _⟩ := hinv
  have hseven : 7 ≤ e.bits.toNat := by
    by_contra hsix
    have := Enc.acc_toNat_lt_of_bits_le (n := 6) hinv (by omega)
    omega
  have hw := groupWidth_bounds e.acc
  have hw13 : 88 < e.acc.toNat → groupWidth e.acc = 13 := fun h => (group_short e.acc (by omega)).1
  refine ⟨lowBits (groupWidth e.acc - e.bits.toNat) (e.acc.toNat / 2 ^ e.bits.toNat), ?_, ?_⟩
  · rw [lowBits_length]
    omega
  · rw [Enc.heldBits, ← lowBits_add, Nat.add_sub_cancel' (by omega), groupBits]

/-- Decoding undoes encoding, by the three outcomes of the encoder's flush (R76, R119). -/
theorem decodeBytes_encodeText (bs : List Byte) : decodeBytes (encodeText bs) = bs := by
  obtain ⟨vs, e, hinv, hvs, hbits, htext⟩ := encodeText_spec bs
  have hlt := Enc.acc_toNat_lt hinv
  rw [htext, Enc.flushText]
  split_ifs with hzero htwo
  · rw [List.append_nil]
    refine decodeBytes_pairText (padding := []) hvs (by decide) ?_
    rw [hbits, Enc.heldBits, hzero, lowBits_zero, List.append_nil, List.append_nil]
  · obtain ⟨padding, hpad, hgroup⟩ := Enc.groupBits_acc hinv htwo
    have hvs' : ∀ v ∈ vs ++ [e.acc], v.toNat ≤ 8280 :=
      List.forall_mem_append.mpr ⟨hvs, List.forall_mem_singleton.mpr (by omega)⟩
    have hstream : (vs ++ [e.acc]).flatMap groupBits = byteBits bs ++ padding := by
      rw [List.flatMap_append, List.flatMap_singleton, hgroup, hbits, List.append_assoc]
    have hdecode := decodeBytes_pairText hvs' hpad hstream
    rwa [List.flatMap_append, List.flatMap_singleton] at hdecode
  · rw [Nat.mod_eq_of_lt (by omega)]
    exact decodeBytes_pairText_alpha hvs (by omega) (by omega) (by omega) hbits

/-- Settles O52: the round trip of the two results, and the two runs of the counterexample from reset. -/
theorem decodeUndoesEncode : Obligations.DecodeUndoesEncode := by
  refine ⟨fun s s' bs => ⟨encodeText bs, encodeFrom_eq s bs, ?_⟩, fun s => ⟨?_, ?_⟩⟩
  · rw [decodeFrom_eq, decodeBytes_encodeText]
  · rw [decodeFrom_eq]
    decide
  · rw [encodeFrom_eq]
    decide

end Sys2Proof.Machine

/-! What raises a fault and what a fault does (60_exceptions.md R130 to R134, R139): a reserved word, or a PUSH or END that finds
its unit closed, is the whole `raise`, and no other command touches a fault record. -/

namespace Sys2Proof.Machine

section
variable {i : Instr} {s : State}

/-- A reserved word is its unit's ERR_ILLEGAL and nothing more, whatever `U.open` is (R133, R139). -/
theorem afterExec_of_op_rsvd (hop : i.op = .rsvd) : afterExec i s = raise i.unit .illegal s := by
  cases i with
  | encRsvd _ | decRsvd _ => rfl
  | encPush _ | encEnd _ | encInit _ | decPush _ | decEnd _ | decInit _ => cases hop

/-- A PUSH or END to a closed unit is its ERR_CLOSED and nothing more (R132). -/
theorem afterExec_of_closed (hop : i.op = .push ∨ i.op = .finish) (hclosed : isOpen i.unit s = false) :
    afterExec i s = raise i.unit .closed s := by
  cases i with
  | encPush d => exact afterExec_encPush_closed s d hclosed
  | encEnd x => exact afterExec_encEnd_closed s x hclosed
  | decPush c => exact afterExec_decPush_closed s c hclosed
  | decEnd x => exact afterExec_decEnd_closed s x hclosed
  | encInit _ | encRsvd _ | decInit _ | decRsvd _ => rcases hop with hop | hop <;> cases hop

/-- An INIT in either state of its unit, and a PUSH or END on an open unit, leave both fault records as they were, whatever the
data (R132, R134). -/
theorem errOf_afterExec_of_no_fault (hrsvd : i.op ≠ .rsvd) (hopen : i.op = .init ∨ isOpen i.unit s = true) (u : UnitId) :
    errOf u (afterExec i s) = errOf u s := by
  cases i with
  | encPush d =>
    rw [afterExec_encPush_open s d (hopen.resolve_left nofun)]
    cases u <;> simp
  | encEnd x =>
    rw [afterExec_encEnd_open s x (hopen.resolve_left nofun)]
    cases u <;> simp
  | decPush c =>
    rw [afterExec_decPush_open s c (hopen.resolve_left nofun)]
    cases u <;> simp
  | decEnd x =>
    rw [afterExec_decEnd_open s x (hopen.resolve_left nofun)]
    cases u <;> simp
  | encInit _ | decInit _ => cases u <;> rfl
  | encRsvd _ | decRsvd _ => exact absurd rfl hrsvd

end

/-- A fault's bit is all that a fault changes, in the state and in what the host sees of it (R131). -/
theorem raise_eq_and_observe_raise (u : UnitId) (k : ErrKind) (s : State) :
    (u = .enc → raise u k s = { s with enc := { s.enc with err := s.enc.err ||| errBit k } } ∧
      observe (raise u k s) = { observe s with encErr := s.enc.err ||| errBit k }) ∧
    (u = .dec → raise u k s = { s with dec := { s.dec with err := s.dec.err ||| errBit k } } ∧
      observe (raise u k s) = { observe s with decErr := s.dec.err ||| errBit k }) := by
  cases u
  · exact ⟨fun _ => ⟨rfl, rfl⟩, nofun⟩
  · exact ⟨nofun, fun _ => ⟨rfl, rfl⟩⟩

/-- Settles O35: by the operation, and for PUSH and END by the open flag, the command is a known fault or none. -/
theorem faultRecordIsComplete : Obligations.FaultRecordIsComplete := by
  refine fun i s => ⟨afterExec i s, exec_eq i s, fun u => ?_⟩
  cases hop : i.op with
  | rsvd =>
    rw [afterExec_of_op_rsvd hop, errOf_raise]
    split_ifs <;> simp [errBit]
  | init =>
    rw [errOf_afterExec_of_no_fault (by simp [hop]) (.inl hop)]
    simp
  | push | finish =>
    cases ho : isOpen i.unit s
    · rw [afterExec_of_closed (by simp [hop]) ho, errOf_raise]
      by_cases hu : i.unit = u
      · simp [← hu, ho, errBit]
      · simp [hu]
    · rw [errOf_afterExec_of_no_fault (by simp [hop]) (.inr ho)]
      by_cases hu : i.unit = u
      · simp [← hu, ho]
      · simp [hu]

/-- Settles O36: each way to fault is a `raise`. -/
theorem faultHasNoOtherEffect : Obligations.FaultHasNoOtherEffect := by
  intro i s hfault
  refine ⟨afterExec i s, exec_eq i s, ?_⟩
  rcases hfault with hop | ⟨hop, hclosed⟩
  · rw [afterExec_of_op_rsvd hop, if_pos hop]
    exact raise_eq_and_observe_raise i.unit .illegal s
  · have hrsvd : i.op ≠ .rsvd := by rcases hop with hop | hop <;> simp [hop]
    rw [afterExec_of_closed hop hclosed, if_neg hrsvd]
    exact raise_eq_and_observe_raise i.unit .closed s

/-- Settles O38: on an open unit a command that is no reserved word raises nothing, at either unit. -/
theorem noFaultDependsOnData : Obligations.NoFaultDependsOnData := fun i s hopen hrsvd =>
  ⟨afterExec i s, exec_eq i s, errOf_afterExec_of_no_fault hrsvd (.inr hopen) .enc,
    errOf_afterExec_of_no_fault hrsvd (.inr hopen) .dec⟩

end Sys2Proof.Machine

/-! Reset and completion (70_reset_and_hazards.md R150, R151, R160). -/

namespace Sys2Proof.Machine

/-- Settles O13: of all that a step can do, only the restart fits a port with the reset operation in front. -/
theorem stepTakesReset : Obligations.StepTakesReset := by
  intro s rest hin
  rcases step_cases s with ⟨h, -⟩ | ⟨w, rest', h, -⟩ | ⟨rest', h, hstep⟩ <;> rw [hin] at h
  · cases h
  · cases h
  · cases h
    exact hstep

/-- A step idles, runs one command or restarts, and each of these answers a next state (R160). -/
theorem exists_step_eq_next (s : State) : ∃ t, step s = .next t := by
  rcases step_cases s with ⟨-, hidle⟩ | ⟨w, rest, -, hcommand⟩ | ⟨rest, -, hreset⟩
  · exact ⟨_, hidle⟩
  · exact ⟨_, hcommand.trans (exec_eq _ _)⟩
  · exact ⟨_, hreset⟩

/-- Settles O16: a command answers `afterExec`, and a step completes because its command does. -/
theorem everyCommandCompletes : Obligations.EveryCommandCompletes :=
  ⟨fun i s => ⟨afterExec i s, exec_eq i s⟩, exists_step_eq_next⟩

/-- On the encoder INIT and reset agree but for the fault record and the stream (R150). -/
theorem Enc.clear_true_eq_reset (e : Enc) : e.clear true = { Enc.reset with err := e.err, out := e.out } := rfl

/-- On the decoder INIT and reset agree but for the fault record and the stream (R150). -/
theorem Dec.clear_true_eq_reset (d : Dec) : d.clear true = { Dec.reset with err := d.err, out := d.out } := rfl

/-- Settles O18: reset forgets both units, and each `INIT` is the clearing of its own, compared with reset. -/
theorem resetIsGlobalAndInitIsPerUnit : Obligations.ResetIsGlobalAndInitIsPerUnit := by
  intro s x
  refine ⟨restart_enc s, restart_dec s, ?_, ?_⟩
  · rw [exec_eq, afterExec_encInit, restart_enc, ← Enc.clear_true_eq_reset]
    rfl
  · rw [exec_eq, afterExec_decInit, restart_dec, ← Dec.clear_true_eq_reset]
    rfl

end Sys2Proof.Machine

/-! The idle port (20_memory.md section 1, the command stream; log 1). -/

namespace Sys2Proof.Machine

/-- Settles O14: of all that a step can do, only idling fits an empty port. -/
theorem stepIdlesWithoutInput : Obligations.StepIdlesWithoutInput := by
  intro s hin
  rcases step_cases s with ⟨-, hidle⟩ | ⟨w, rest, h, -⟩ | ⟨rest, h, -⟩
  · exact hidle
  · rw [hin] at h
    cases h
  · rw [hin] at h
    cases h

end Sys2Proof.Machine
